-- ==== Sys2Proof/Word.lean ====
section
/-! DEFINITION. The word types of the KECCAK256-CORE (00_scope.md R8, R9, R11). All values are unsigned; bit 0 is the
least significant bit (R11). -/

namespace Sys2Proof

/-- A text byte, a response or an entry of OUT (R9, R15). -/
abbrev Byte := BitVec 8

/-- The value of one hex digit (10_state.md R28). -/
abbrev Nibble := BitVec 4

/-- One 64-bit lane of the Keccak state (R8 LANE_W). -/
abbrev Lane := BitVec 64

/-- The lane array: 25 lanes in lane-number order k = x + 5y (10_state.md R21, R23). -/
abbrev Lanes := Vector Lane 25

/-- One command word: OPCODE [15:8], OPERAND [7:0] (30_encoding.md R70). -/
abbrev CommandWord := BitVec 16

end Sys2Proof
end

