-- ==== Sys2Proof/Config.lean ====
section
/-! DEFINITION. The fixed parameters of the block (00_scope.md R8: none is configurable) that more than one file uses, and
the one free value of the model: the schedule of host reads against engine steps. -/

namespace Sys2Proof

/-- RATE_BYTES (R8): the bytes of one block. -/
abbrev Config.rateBytes : Nat := 136

/-- NROUNDS (R8, 41_permutation.md R132). -/
abbrev Config.numRounds : Nat := 24

/-- PAD_FIRST (R8, 42_sponge.md R150, R151): the original Keccak padding byte, never the NIST 0x06. -/
abbrev Config.padFirst : Byte := 0x01

/-- PAD_LAST (R8, R150). -/
abbrev Config.padLast : Byte := 0x80

/-- FREE VALUE (log 3). While PHASE = BUSY, host reads and engine steps interleave in an order the spec leaves open
(70_reset_and_hazards.md R245; 93_implementation_defined.md I7: "any value"). `pollsBeforeRound n` is how many host reads
fall before the n-th round the block ever runs. It has no body, so nothing can be proved of its values; that it is a
number at all is the weak fairness R192 asks for (every round is preceded by finitely many reads). -/
opaque Config.pollsBeforeRound : Nat → Nat

end Sys2Proof
end

