-- ==== Sys2Proof/Syntax.lean ====
section
/-! DEFINITION. The commands of the block, one constructor for each row of spec/opcode_table.json (30_encoding.md R72). -/

namespace Sys2Proof

/-- A decoded command. Every operand bit of the word is kept, also where the command ignores it (R73). -/
inductive Instr where
  /-- START, OPCODE 0x01 (44_commands.md R182); the operand is ignored. -/
  | start (operand : Byte)
  /-- CHAR c, OPCODE 0x02 (R183); c is one byte of the input text. -/
  | char (c : Byte)
  /-- FINISH, OPCODE 0x03 (R184); the operand is ignored. -/
  | finish (operand : Byte)
  /-- READ_STATUS, OPCODE 0x04 (R185); the operand is ignored. -/
  | readStatus (operand : Byte)
  /-- READ_OUT i, OPCODE 0x05 (R186); i is an index 0..255. -/
  | readOut (i : Byte)
  /-- The reserved opcode 0x00 (R74, R187). -/
  | reserved00 (operand : Byte)
  /-- The reserved opcodes 0x06..0x07 (R74, R187). -/
  | reserved06 (opcode operand : Byte)
  /-- The reserved opcodes 0x08..0x0F (R74, R187). -/
  | reserved08 (opcode operand : Byte)
  /-- The reserved opcodes 0x10..0x1F (R74, R187). -/
  | reserved10 (opcode operand : Byte)
  /-- The reserved opcodes 0x20..0x3F (R74, R187). -/
  | reserved20 (opcode operand : Byte)
  /-- The reserved opcodes 0x40..0x7F (R74, R187). -/
  | reserved40 (opcode operand : Byte)
  /-- The reserved opcodes 0x80..0xFF (R74, R187). -/
  | reserved80 (opcode operand : Byte)
deriving DecidableEq, Repr

/-- READ_STATUS and READ_OUT, the commands that never hold (44_commands.md R180, R185, R186). -/
def Instr.isRead : Instr → Bool
  | .readStatus _ => true
  | .readOut _ => true
  | .start _ => false
  | .char _ => false
  | .finish _ => false
  | .reserved00 _ => false
  | .reserved06 _ _ => false
  | .reserved08 _ _ => false
  | .reserved10 _ _ => false
  | .reserved20 _ _ => false
  | .reserved40 _ _ => false
  | .reserved80 _ _ => false

/-- The reserved opcodes, whichever row of the table they stand in (30_encoding.md R74). -/
def Instr.isReserved : Instr → Bool
  | .reserved00 _ => true
  | .reserved06 _ _ => true
  | .reserved08 _ _ => true
  | .reserved10 _ _ => true
  | .reserved20 _ _ => true
  | .reserved40 _ _ => true
  | .reserved80 _ _ => true
  | .start _ => false
  | .char _ => false
  | .finish _ => false
  | .readStatus _ => false
  | .readOut _ => false

end Sys2Proof
end

