-- ==== Sys2Proof/Machine/State.lean ====
section
/-! DEFINITION. The state of the block (10_state.md R20), the model's own fields for its environment, and the reset state
(R41, 70_reset_and_hazards.md R240). -/

namespace Sys2Proof.Machine

/-- PHASE, the sequencer state (10_state.md R31). The codes 5, 6 and 7 are never produced, so no constructor has them
(log 8); the codes stand in Machine/Flags.lean. -/
inductive Phase where
  /-- After reset; no computation open. -/
  | idle
  /-- A computation is open and takes characters. -/
  | absorb
  /-- The engine is running a permutation. -/
  | busy
  /-- OUT holds the digest of the last computation. -/
  | done
  /-- The last computation failed; ERR says why. -/
  | error
deriving DecidableEq, Repr

/-- ERR, the error kind of the last failed computation (10_state.md R32, 60_exceptions.md R210). -/
inductive Err where
  /-- No error. -/
  | none
  /-- InvalidLength: an odd number of characters. -/
  | invalidLength
  /-- InvalidCharacter: a character outside 0-9a-fA-F. -/
  | invalidCharacter
  /-- A command not allowed in the phase, or a reserved opcode. -/
  | protocolError
deriving DecidableEq, Repr

/-- The whole state: R20's table, then the model's own fields. -/
structure State where
  /-- A: the lane array (R21, R23). -/
  a : Lanes
  /-- FILL: the byte position in the current block (R26). -/
  fill : BitVec 8
  /-- NIBP: a nibble is pending, the parity of the characters taken (R27). -/
  nibp : Bool
  /-- HI: the held high nibble (R28). -/
  hi : Nibble
  /-- ROUND: the index of the next round to run (R29). -/
  round : BitVec 5
  /-- FINAL: the permutation in progress is the last one of the message (R30). -/
  final : Bool
  /-- PHASE (R31). -/
  phase : Phase
  /-- ERR (R32). -/
  err : Err
  /-- OUT: the formatted digest characters (R34). -/
  out : Vector Byte 64
  /-- MODEL (log 1): the host's command stream, the next command first (44_commands.md R180). -/
  stream : List CommandWord
  /-- MODEL (log 2): the responses returned so far, oldest first (30_encoding.md R71, 20_memory.md R62). -/
  resps : List Byte
  /-- MODEL (log 4): the level of the reset input at each coming step; not asserted where the list has ended (R240). -/
  resetIn : List Bool
  /-- MODEL (log 3): how many host reads the engine still yields to before its next round (R245). -/
  slack : Nat
  /-- MODEL (log 3): the index of the next free scheduling value, which is the number of rounds scheduled so far. -/
  draw : Nat
deriving DecidableEq, Repr

/-- No behaviour of the block is a model fault (93_implementation_defined.md, after I18): every command word has a defined
outcome in every phase, and the ERROR phase is a defined state (60_exceptions.md R216). Nothing raises a fault; safe. -/
inductive Fault where
deriving DecidableEq, Repr

/-- Why a step has no meaning. -/
inductive Refusal where
  /-- Raised only by an arm of exec whose instruction has no meaning yet; no arm does. Safe: a refusal proves nothing. -/
  | notModelled (mnemonic : String)
deriving DecidableEq, Repr

/-- Whose turn the next step is (44_commands.md R180; 70_reset_and_hazards.md R240). -/
inductive Turn where
  /-- The reset input is asserted. -/
  | reset
  /-- The host agent performs the command at the head of its stream. -/
  | host (i : Instr)
  /-- The engine runs one round. -/
  | engine
  /-- No agent is enabled: the block waits for a command. -/
  | idle
deriving DecidableEq, Repr

/-- The state right after reset (R41, R240), with the model's own fields empty (log 1 to 4). -/
def State.reset : State where
  a := Vector.replicate 25 0
  fill := 0
  nibp := false
  hi := 0
  round := 0
  final := false
  phase := .idle
  err := .none
  out := Vector.replicate 64 0
  stream := []
  resps := []
  resetIn := []
  slack := 0
  draw := 0

end Sys2Proof.Machine
end

