-- ==== Sys2Proof/Machine/Operands.lean ====
section
/-! DEFINITION. The operand forms (30_encoding.md R73): a raw text byte, an output index, an ignored byte (which needs no
function: its command does not look at it). No operand is sign-extended, scaled or shifted. -/

namespace Sys2Proof.Machine

/-- CHAR: "OPERAND is taken as a raw byte c, with no extension". -/
def charOperand (operand : Byte) : Byte := operand

/-- READ_OUT: "OPERAND is an unsigned index i, 0..255". -/
def indexOperand (operand : Byte) : Nat := operand.toNat

end Sys2Proof.Machine
end

