-- ==== Sys2Proof/Machine/Flags.lean ====
section
/-! DEFINITION. The status register and the codes of its fields (10_state.md R31, R32, R33). NIBP is the block's only
condition flag (R27, R39); CHAR's meaning writes it. -/

namespace Sys2Proof.Machine

/-- The code of PHASE, 3 bits (R31). -/
def phaseCode : Phase → BitVec 3
  | .idle => 0
  | .absorb => 1
  | .busy => 2
  | .done => 3
  | .error => 4

/-- The code of ERR, 2 bits (R32). -/
def errCode : Err → BitVec 2
  | .none => 0
  | .invalidLength => 1
  | .invalidCharacter => 2
  | .protocolError => 3

/-- R33: `STATUS = zext_8(PHASE) | (zext_8(ERR) << 3)`; bits [7:5] read 0. -/
def statusByte (p : Phase) (e : Err) : Byte :=
  (phaseCode p).setWidth 8 ||| ((errCode e).setWidth 8 <<< 3)

/-- The status register of a state (R33). -/
def State.status (s : State) : Byte := statusByte s.phase s.err

end Sys2Proof.Machine
end

