-- ==== Sys2Proof/Machine/Ops.lean ====
section
/-! DEFINITION. The shared operations: the lane array and its serialized view (10_state.md R22, R23; 20_memory.md R52 to
R55), responding to a command, raising an error and leaving the ERROR phase (60_exceptions.md R211, R217), the phase table
of 44_commands.md R181, and starting a permutation. -/

namespace Sys2Proof.Machine

/-! ## The lane array -/

/-- `A[x][y]`: the indices are taken mod 5 (R22); lane number x + 5y (R23). -/
def lane (a : Lanes) (x y : Nat) : Lane := a[x % 5 + 5 * (y % 5)]'(by omega)

/-- `A[x][y] <- v` (R22, R23). -/
def setLane (a : Lanes) (x y : Nat) (v : Lane) : Lanes := a.set (x % 5 + 5 * (y % 5)) v (by omega)

/-- The array whose lane (x, y) is `f x y`, for x and y in 0..4: every lane of a new array is a function of the old one
(00_scope.md R14). -/
def mkLanes (f : Nat → Nat → Lane) : Lanes := Vector.ofFn fun k : Fin 25 => f (k.val % 5) (k.val / 5)

/-- All 25 lanes zero (R41). -/
def zeroLanes : Lanes := Vector.replicate 25 0

/-- All 64 characters 0x00 (R34, R41). -/
def zeroOut : Vector Byte 64 := Vector.replicate 64 0

/-! ## The serialized view S (20_memory.md R52) -/

/-- `S[i]`: with k = i div 8 and j = i mod 8, byte j of lane k, the least significant byte first (R52). S is defined for i
in 0..199; past that the lane index wraps (log 6). -/
def sByte (a : Lanes) (i : Nat) : Byte := (lane a (i / 8 % 5) (i / 8 / 5)).extractLsb' (8 * (i % 8)) 8

/-- `S[i] <- v`: replaces bits [8j+7:8j] of lane k and changes no other bit (R52). -/
def writeS (a : Lanes) (i : Nat) (v : Byte) : Lanes :=
  setLane a (i / 8 % 5) (i / 8 / 5)
    ((lane a (i / 8 % 5) (i / 8 / 5) &&& ~~~((0xFF : Lane) <<< (8 * (i % 8)))) ||| (v.setWidth 64 <<< (8 * (i % 8))))

/-- XORing a byte into S (R54): `A[x][y] <- A[x][y] ^ (zext_64(b) << (8*j))`. -/
def xorS (a : Lanes) (i : Nat) (b : Byte) : Lanes :=
  setLane a (i / 8 % 5) (i / 8 / 5) (lane a (i / 8 % 5) (i / 8 / 5) ^^^ (b.setWidth 64 <<< (8 * (i % 8))))

/-- XORing a byte string into S from position i on, byte 0 first (20_memory.md R51). -/
def xorBytes (a : Lanes) (i : Nat) : List Byte → Lanes
  | [] => a
  | b :: bs => xorBytes (xorS a i b) (i + 1) bs

/-- The serialized state S[0..200), byte 0 first (R51, R52). -/
def serialize (a : Lanes) : Vector Byte 200 := Vector.ofFn fun i : Fin 200 => sByte a i.val

/-! ## Responses (30_encoding.md R71) -/

/-- `respond(v)`: the command at the head of the host's stream has been performed and returns v (R71, R62). -/
def respond (v : Byte) (s : State) : State := { s with stream := s.stream.tail, resps := s.resps ++ [v] }

/-- `respond(STATUS)`: the status as it stands after the command's effect (R71). -/
def respondStatus (s : State) : State := respond s.status s

/-! ## Clearing, errors and their exits -/

/-- Every register at its reset value but PHASE and ERR, which take the values given: the common part of START
(44_commands.md R182), raise (60_exceptions.md R211) and reset (70_reset_and_hazards.md R240). The environment's fields
stand as they are. -/
def clearAll (p : Phase) (e : Err) (s : State) : State :=
  { s with a := zeroLanes, fill := 0, nibp := false, hi := 0, round := 0, final := false, phase := p, err := e, out := zeroOut }

/-- TAKING AN ERROR: `raise E`, with its response (R211). It saves nothing and branches nowhere (R215, R216). -/
def raise (e : Err) (s : State) : State := respondStatus (clearAll .error e s)

/-- THE EXIT FROM ERROR by command: START opens a computation from any accepting phase (R182, R217). -/
def openComputation (s : State) : State := respondStatus (clearAll .absorb .none s)

/-- The exit from any phase by the reset input: no response, no command consumed (R240, R217). -/
def applyReset (s : State) : State := clearAll .idle .none s

/-! ## Which commands a phase accepts (44_commands.md R181) -/

/-- `hold`: the command is not performed and stays at the head of the stream, with no response (R180; log 5). -/
def hold (s : State) : State := s

/-- A command ignored in ERROR changes no state and responds STATUS (R189). -/
def ignoreInError (s : State) : State := respondStatus s

/-- The rows CHAR, FINISH and reserved of R181: PROTOCOL_ERROR in IDLE and DONE, the effect given in ABSORB, hold in BUSY,
ignored in ERROR. -/
def byPhase (inAbsorb : State → State) (s : State) : State :=
  match s.phase with
  | .idle => raise .protocolError s
  | .absorb => inAbsorb s
  | .busy => hold s
  | .done => raise .protocolError s
  | .error => ignoreInError s

/-- The row START of R181: accepted in every phase but BUSY. -/
def unlessBusy (effect : State → State) (s : State) : State :=
  match s.phase with
  | .idle => effect s
  | .absorb => effect s
  | .busy => hold s
  | .done => effect s
  | .error => effect s

/-! ## The schedule and the start of a permutation -/

/-- The engine schedules its next round: the number of host reads before it is a free value (log 3). -/
def drawSlack (s : State) : State := { s with slack := Config.pollsBeforeRound s.draw, draw := s.draw + 1 }

/-- `FILL <- 0; ROUND <- 0; FINAL <- f; PHASE <- BUSY` (44_commands.md R184, R188): a permutation starts, its first round
scheduled. -/
def startPermutation (f : Bool) (s : State) : State :=
  drawSlack { s with fill := 0, round := 0, final := f, phase := .busy }

end Sys2Proof.Machine
end

