-- ==== Sys2Proof/Machine/HexCodec.lean ====
section
/-! DEFINITION. HexCodec (40_hexcodec.md R100 to R109): character validation and nibble aggregation. -/

namespace Sys2Proof.Machine

/-- `valid(c)`: the hex-digit character class (R100). -/
def valid (c : Byte) : Bool :=
  (0x30 ≤ c && c ≤ 0x39) || (0x41 ≤ c && c ≤ 0x46) || (0x61 ≤ c && c ≤ 0x66)

/-- `hexval(c)`: the value of one hex digit (R101). It is not applied to a byte with `valid c` false (log 6). -/
def hexval (c : Byte) : Nibble :=
  if 0x30 ≤ c && c ≤ 0x39 then (c - 0x30).setWidth 4
  else if 0x41 ≤ c && c ≤ 0x46 then (c - 0x41 + 10).setWidth 4
  else (c - 0x61 + 10).setWidth 4

/-- `(HI << 4) | lo`: the byte of a held high nibble and a low nibble (R103, 44_commands.md R183). -/
def pairNibbles (hi lo : Nibble) : Byte := (hi.setWidth 8 <<< 4) ||| lo.setWidth 8

/-- `pair(c0, c1)`: the first character of a pair is the high nibble (R103, 20_memory.md R57). -/
def pair (c0 c1 : Byte) : Byte := pairNibbles (hexval c0) (hexval c1)

/-- The two failures of the keccak256 function (40_hexcodec.md R104, R108). -/
inductive HexError where
  /-- Err(InvalidCharacter). -/
  | invalidCharacter
  /-- Err(InvalidLength). -/
  | invalidLength
deriving DecidableEq, Repr

/-- `[ pair(t[2m], t[2m+1]) for m in 0 .. n/2 - 1 ]` (R104). -/
def pairs : List Byte → List Byte
  | c0 :: c1 :: rest => pair c0 c1 :: pairs rest
  | [_] => []
  | [] => []

/-- `decode(t)`: every character is inspected before the length is (R104, R105, R106). -/
def hexDecode (t : List Byte) : Except HexError (List Byte) :=
  if t.all valid then
    if t.length % 2 = 1 then .error .invalidLength else .ok (pairs t)
  else .error .invalidCharacter

end Sys2Proof.Machine
end

