-- ==== Sys2Proof/Machine/Permutation.lean ====
section
/-! DEFINITION. KeccakPermutation (41_permutation.md R120 to R134): Keccak-f[1600]. Each step is a function of the whole
input array (00_scope.md R14; 70_reset_and_hazards.md R246). -/

namespace Sys2Proof.Machine

/-- `ROL64(v, n)`, n in 0..63 (R120). -/
def rol64 (v : Lane) (n : Nat) : Lane := if n = 0 then v else (v <<< n) ||| (v >>> (64 - n))

/-- The ρ offsets by lane number k = x + 5y (R124). -/
def rhoTable : List Nat :=
  [0, 1, 62, 28, 27, 36, 44, 6, 55, 20, 3, 10, 43, 25, 39, 41, 45, 15, 21, 8, 18, 2, 61, 56, 14]

/-- `RHO[x][y]` (R36, R124). -/
def rho (x y : Nat) : Nat := rhoTable.getD (x % 5 + 5 * (y % 5)) 0

/-- The round constants RC[0..23] (R129). -/
def rcTable : List Lane :=
  [0x0000000000000001, 0x0000000000008082, 0x800000000000808A, 0x8000000080008000,
   0x000000000000808B, 0x0000000080000001, 0x8000000080008081, 0x8000000000008009,
   0x000000000000008A, 0x0000000000000088, 0x0000000080008009, 0x000000008000000A] ++
  [0x000000008000808B, 0x800000000000008B, 0x8000000000008089, 0x8000000000008003,
   0x8000000000008002, 0x8000000000000080, 0x000000000000800A, 0x800000008000000A,
   0x8000000080008081, 0x8000000000008080, 0x0000000080000001, 0x8000000080008008]

/-- `RC[ir]` (R35, R129); ir outside 0..23 never occurs (R127; log 6). -/
def rc (ir : Nat) : Lane := rcTable.getD ir 0

/-- `C[x]`, the column parity (R121). -/
def columnParity (a : Lanes) (x : Nat) : Lane :=
  lane a x 0 ^^^ lane a x 1 ^^^ lane a x 2 ^^^ lane a x 3 ^^^ lane a x 4

/-- `D[x] = C[(x - 1) mod 5] ^ ROL64(C[(x + 1) mod 5], 1)` (R121, 90_conflicts.md C1); x - 1 is x + 4 mod 5 (R22). -/
def thetaEffect (a : Lanes) (x : Nat) : Lane := columnParity a (x + 4) ^^^ rol64 (columnParity a (x + 1)) 1

/-- `θ(A)` (R121). -/
def theta (a : Lanes) : Lanes := mkLanes fun x y => lane a x y ^^^ thetaEffect a x

/-- `ρ(A)` (R122). -/
def rhoStep (a : Lanes) : Lanes := mkLanes fun x y => rol64 (lane a x y) (rho x y)

/-- `π(A)` (R123): `A'[x][y] = A[(x + 3*y) mod 5][x]`. -/
def piStep (a : Lanes) : Lanes := mkLanes fun x y => lane a (x + 3 * y) x

/-- `χ(A)` (R125). -/
def chi (a : Lanes) : Lanes := mkLanes fun x y => lane a x y ^^^ (~~~(lane a (x + 1) y) &&& lane a (x + 2) y)

/-- `ι(A, ir)` (R127): only lane (0,0) changes. -/
def iota (a : Lanes) (ir : Nat) : Lanes := setLane a 0 0 (lane a 0 0 ^^^ rc ir)

/-- `Round(A, ir) = ι(χ(π(ρ(θ(A)))), ir)` (R130; the order is fixed, 70_reset_and_hazards.md R247). -/
def roundStep (a : Lanes) (ir : Nat) : Lanes := iota (chi (piStep (rhoStep (theta a)))) ir

/-- `KeccakF(A)`: the rounds 0, 1, …, 23 in this order (R132). -/
def keccakF (a : Lanes) : Lanes := (List.range Config.numRounds).foldl roundStep a

/-! ## The generators of the tables (R131): a check on R124 and R129 -/

/-- The walk over the 24 non-origin positions: from t and (x, y), the entries (x, y, offset) still to come. -/
def rhoWalk : Nat → Nat → Nat → Nat → List (Nat × Nat × Nat)
  | 0, _, _, _ => []
  | n + 1, t, x, y => (x, y, (t + 1) * (t + 2) / 2 % 64) :: rhoWalk n (t + 1) y ((2 * x + 3 * y) % 5)

/-- One step of the degree-8 LFSR on R[0..7], bit i of the number being R[i]: shift up, then fold R[8] into R[0], R[4], R[5]
and R[6]. -/
def lfsrStep (r : BitVec 8) : BitVec 8 := (r <<< 1) ^^^ (if r.getLsbD 7 then 0x71 else 0)

/-- `rc(t)`: R[0] after t mod 255 steps from R[0] = 1. -/
def rcBit (t : Nat) : Bool := (Nat.repeat lfsrStep (t % 255) 1).getLsbD 0

/-- `RC[ir] = sum over j in 0..6 of rc(j + 7*ir) << (2^j - 1)`. -/
def rcGenerated (ir : Nat) : Lane :=
  (List.range 7).foldl (fun v j => v ^^^ (if rcBit (j + 7 * ir) then (1 : Lane) <<< (2 ^ j - 1) else 0)) 0

end Sys2Proof.Machine
end

