-- ==== Sys2Proof/Machine/Sponge.lean ====
section
/-! DEFINITION. SpongeConstruction (42_sponge.md R150 to R160) and OutputFormatter (43_formatter.md R170 to R172) as pure
functions, and the sequencer's absorb half (44_commands.md R188). -/

namespace Sys2Proof.Machine

/-! ## Padding and absorbing -/

/-- The padding bytes P of q = 136 - (L mod 136) bytes: `P[0] ^= 0x01; P[q-1] ^= 0x80` on zeros (R150). -/
def padding (q : Nat) : List Byte :=
  ((List.replicate q (0 : Byte)).modify 0 (· ^^^ Config.padFirst)).modify (q - 1) (· ^^^ Config.padLast)

/-- `pad(M)`: pad10*1 with first byte 0x01 (R150, R151). -/
def pad (m : List Byte) : List Byte := m ++ padding (Config.rateBytes - m.length % Config.rateBytes)

/-- `blocks(P) = [ P[136*b .. 136*b + 136) for b in 0 .. N-1 ]` (R152). -/
def blocks (p : List Byte) : List (List Byte) :=
  (List.range (p.length / Config.rateBytes)).map fun b => (p.drop (Config.rateBytes * b)).take Config.rateBytes

/-- `absorb(A, blk)`: XOR the block into S[0..136), then permute (R153). -/
def absorb (a : Lanes) (blk : List Byte) : Lanes := keccakF (xorBytes a 0 blk)

/-- `squeeze(A) = S[0 .. 32)` (R154, 20_memory.md R55). -/
def squeeze (a : Lanes) : Vector Byte 32 := Vector.ofFn fun i : Fin 32 => sByte a i.val

/-- The state `hash(M)` squeezes: all blocks absorbed from zero (R155). -/
def hashState (m : List Byte) : Lanes := (blocks (pad m)).foldl absorb zeroLanes

/-- `hash(M)`: the 32-byte digest (R155). -/
def hash (m : List Byte) : Vector Byte 32 := squeeze (hashState m)

/-! ## The output format -/

/-- `hexdigit(n)`: one lowercase hex digit (43_formatter.md R170). -/
def hexdigit (n : Nibble) : Byte := if n ≤ 9 then 0x30 + n.setWidth 8 else 0x61 + (n.setWidth 8 - 10)

/-- `encode(d)`: the most significant nibble first (43_formatter.md R171). -/
def encodeDigest (d : Vector Byte 32) : Vector Byte 64 :=
  Vector.ofFn fun i : Fin 64 =>
    hexdigit (if i.val % 2 = 0 then (d[i.val / 2] >>> 4).setWidth 4 else (d[i.val / 2] &&& 0x0F).setWidth 4)

/-- `keccak256(t)`: the block's whole function (42_sponge.md R160). -/
def keccak256 (t : List Byte) : Except HexError (Vector Byte 64) :=
  match hexDecode t with
  | .error e => .error e
  | .ok m => .ok (encodeDigest (hash m))

/-! ## The sequencer's helper -/

/-- `absorb_byte(b)` (44_commands.md R188): XOR the byte at S[FILL]; a full block starts its permutation at once. -/
def absorbByte (b : Byte) (s : State) : State :=
  let s' := { s with a := xorS s.a s.fill.toNat b }
  if s.fill = 135 then startPermutation false s' else { s' with fill := s.fill + 1 }

end Sys2Proof.Machine
end

