-- ==== Sys2Proof/Machine/Commands.lean ====
section
/-! DEFINITION. The commands that change state: START, CHAR and FINISH (44_commands.md R182 to R184). -/

namespace Sys2Proof.Machine

/-- START (R182). -/
def execStart (_operand : Byte) (s : State) : Host.Outcome State Fault Refusal :=
  .next (unlessBusy openComputation s)

/-- CHAR c in ABSORB (R183): an invalid character raises; the first character of a pair is held in HI; the second completes
a byte, which is absorbed. -/
def takeChar (c : Byte) (s : State) : State :=
  if !valid c then raise .invalidCharacter s
  else if !s.nibp then respondStatus { s with hi := hexval c, nibp := true }
  else respondStatus (absorbByte (pairNibbles s.hi (hexval c)) { s with hi := 0, nibp := false })

/-- CHAR c (R181, R183). -/
def execChar (c : Byte) (s : State) : Host.Outcome State Fault Refusal :=
  .next (byPhase (takeChar (charOperand c)) s)

/-- FINISH in ABSORB (R184): an odd length raises; otherwise the padding is XORed in at S[FILL] and S[135] and the final
permutation starts. -/
def finishInput (s : State) : State :=
  if s.nibp then raise .invalidLength s
  else respondStatus (startPermutation true
    { s with a := xorS (xorS s.a s.fill.toNat Config.padFirst) 135 Config.padLast })

/-- FINISH (R181, R184). -/
def execFinish (_operand : Byte) (s : State) : Host.Outcome State Fault Refusal :=
  .next (byPhase finishInput s)

end Sys2Proof.Machine
end

