-- ==== Sys2Proof/Machine/Reads.lean ====
section
/-! DEFINITION. The commands that read: READ_STATUS and READ_OUT (44_commands.md R185, R186). They are accepted in every
phase and change no register. -/

namespace Sys2Proof.Machine

/-- READ_STATUS (R185). -/
def execReadStatus (_operand : Byte) (s : State) : Host.Outcome State Fault Refusal :=
  .next (respondStatus s)

/-- The character READ_OUT returns (R186): `OUT[i]` in DONE for i < 64, else 0x00. -/
def outChar (i : Nat) (s : State) : Byte :=
  if s.phase = .done then s.out.getD i 0 else 0

/-- READ_OUT i (R186). -/
def execReadOut (i : Byte) (s : State) : Host.Outcome State Fault Refusal :=
  .next (respond (outChar (indexOperand i) s) s)

end Sys2Proof.Machine
end

