-- ==== Sys2Proof/Machine/Reserved.lean ====
section
/-! DEFINITION. The reserved opcodes, one meaning for each row of the table (30_encoding.md R74; 44_commands.md R187). -/

namespace Sys2Proof.Machine

/-- A reserved opcode (R187): PROTOCOL_ERROR in IDLE, ABSORB and DONE, ignored in ERROR, holds in BUSY. -/
def reservedOpcode (s : State) : State := byPhase (raise .protocolError) s

/-- Reserved opcode 0x00 (R187). -/
def execReserved00 (_operand : Byte) (s : State) : Host.Outcome State Fault Refusal := .next (reservedOpcode s)

/-- Reserved opcodes 0x06..0x07 (R187). -/
def execReserved06 (_opcode _operand : Byte) (s : State) : Host.Outcome State Fault Refusal := .next (reservedOpcode s)

/-- Reserved opcodes 0x08..0x0F (R187). -/
def execReserved08 (_opcode _operand : Byte) (s : State) : Host.Outcome State Fault Refusal := .next (reservedOpcode s)

/-- Reserved opcodes 0x10..0x1F (R187). -/
def execReserved10 (_opcode _operand : Byte) (s : State) : Host.Outcome State Fault Refusal := .next (reservedOpcode s)

/-- Reserved opcodes 0x20..0x3F (R187). -/
def execReserved20 (_opcode _operand : Byte) (s : State) : Host.Outcome State Fault Refusal := .next (reservedOpcode s)

/-- Reserved opcodes 0x40..0x7F (R187). -/
def execReserved40 (_opcode _operand : Byte) (s : State) : Host.Outcome State Fault Refusal := .next (reservedOpcode s)

/-- Reserved opcodes 0x80..0xFF (R187). -/
def execReserved80 (_opcode _operand : Byte) (s : State) : Host.Outcome State Fault Refusal := .next (reservedOpcode s)

end Sys2Proof.Machine
end

