-- ==== Sys2Proof/Machine/Dispatch.lean ====
section
/-! DEFINITION. exec: one arm for each command, each a call of its meaning. -/

namespace Sys2Proof.Machine

/-- The host step of one command (44_commands.md R180 to R187). -/
def exec (i : Instr) (s : State) : Host.Outcome State Fault Refusal :=
  match i with
  | .start operand => Sys2Proof.Machine.execStart operand s
  | .char c => Sys2Proof.Machine.execChar c s
  | .finish operand => Sys2Proof.Machine.execFinish operand s
  | .readStatus operand => Sys2Proof.Machine.execReadStatus operand s
  | .readOut index => Sys2Proof.Machine.execReadOut index s
  | .reserved00 operand => Sys2Proof.Machine.execReserved00 operand s
  | .reserved06 opcode operand => Sys2Proof.Machine.execReserved06 opcode operand s
  | .reserved08 opcode operand => Sys2Proof.Machine.execReserved08 opcode operand s
  | .reserved10 opcode operand => Sys2Proof.Machine.execReserved10 opcode operand s
  | .reserved20 opcode operand => Sys2Proof.Machine.execReserved20 opcode operand s
  | .reserved40 opcode operand => Sys2Proof.Machine.execReserved40 opcode operand s
  | .reserved80 opcode operand => Sys2Proof.Machine.execReserved80 opcode operand s

end Sys2Proof.Machine
end

