-- ==== Sys2Proof/Machine/Engine.lean ====
section
/-! DEFINITION. The engine (44_commands.md R190, R191): one permutation round a step, and the squeeze and format that end
the final permutation. -/

namespace Sys2Proof.Machine

/-- `complete()` (R191): squeeze and format; A keeps the final state. -/
def complete (s : State) : State :=
  { s with out := encodeDigest (squeeze s.a), final := false, phase := .done }

/-- The engine step (R190). After a round that is not the last, the next one is scheduled (log 3). -/
def engineStep (s : State) : State :=
  let s' := { s with a := roundStep s.a s.round.toNat }
  if s.round.toNat < 23 then drawSlack { s' with round := s.round + 1 }
  else if s.final then complete { s' with round := 0 }
  else { s' with round := 0, phase := .absorb }

end Sys2Proof.Machine
end

