-- ==== Sys2Proof/WellFormed.lean ====
section
/-! DEFINITION. Which terms of Instr are commands of the opcode map (30_encoding.md R72): no operand value is reserved
(R75), so the only check is that a reserved row's opcode lies in that row's range. -/

namespace Sys2Proof

/-- The term is a command word of its row of spec/opcode_table.json. -/
def Instr.wellFormed : Instr → Bool
  | .start _ => true
  | .char _ => true
  | .finish _ => true
  | .readStatus _ => true
  | .readOut _ => true
  | .reserved00 _ => true
  | .reserved06 opcode _ => 0x06 ≤ opcode.toNat && opcode.toNat ≤ 0x07
  | .reserved08 opcode _ => 0x08 ≤ opcode.toNat && opcode.toNat ≤ 0x0F
  | .reserved10 opcode _ => 0x10 ≤ opcode.toNat && opcode.toNat ≤ 0x1F
  | .reserved20 opcode _ => 0x20 ≤ opcode.toNat && opcode.toNat ≤ 0x3F
  | .reserved40 opcode _ => 0x40 ≤ opcode.toNat && opcode.toNat ≤ 0x7F
  | .reserved80 opcode _ => 0x80 ≤ opcode.toNat

end Sys2Proof
end

