-- ==== Sys2Proof/Decode.lean ====
section
/-! DEFINITION. The decoder, total on the 65536 command words (30_encoding.md R70, R72, R75, R81), the byte-pair transport
in front of it (R70), and the encoder. -/

namespace Sys2Proof

/-- OPCODE, bits [15:8] (R70). -/
def opcodeOf (w : CommandWord) : Byte := (w >>> 8).setWidth 8

/-- OPERAND, bits [7:0] (R70). -/
def operandOf (w : CommandWord) : Byte := w.setWidth 8

/-- The word with the given fields (R70). -/
def wordOf (opcode operand : Byte) : CommandWord :=
  (opcode.setWidth 16 <<< 8) ||| operand.setWidth 16

/-- The opcode map of R72; the reserved opcodes are told apart by the rows of spec/opcode_table.json. Matching is on OPCODE
alone (R81). -/
def decode (w : CommandWord) : Instr :=
  let opcode := opcodeOf w
  let operand := operandOf w
  if opcode = 0x00 then .reserved00 operand
  else if opcode = 0x01 then .start operand
  else if opcode = 0x02 then .char operand
  else if opcode = 0x03 then .finish operand
  else if opcode = 0x04 then .readStatus operand
  else if opcode = 0x05 then .readOut operand
  else if opcode &&& 0xFE = 0x06 then .reserved06 opcode operand
  else if opcode &&& 0xF8 = 0x08 then .reserved08 opcode operand
  else if opcode &&& 0xF0 = 0x10 then .reserved10 opcode operand
  else if opcode &&& 0xE0 = 0x20 then .reserved20 opcode operand
  else if opcode &&& 0xC0 = 0x40 then .reserved40 opcode operand
  else .reserved80 opcode operand

/-- Why a byte sequence is no command. -/
inductive DecodeError where
  /-- Fewer than the two bytes of a command word (the command length is fixed at 16 bits, R81). -/
  | truncated
deriving DecidableEq, Repr

/-- The byte-pair transport (R70): "A platform that carries command words as byte pairs sends OPCODE first". Answers the
command and the bytes after it. -/
def decodeBytes : List Byte → Except DecodeError (Instr × List Byte)
  | opcode :: operand :: rest => .ok (decode (wordOf opcode operand), rest)
  | [_] => .error .truncated
  | [] => .error .truncated

/-- The word of a command, written from R72 and R77. -/
def encode : Instr → CommandWord
  | .start operand => wordOf 0x01 operand
  | .char c => wordOf 0x02 c
  | .finish operand => wordOf 0x03 operand
  | .readStatus operand => wordOf 0x04 operand
  | .readOut i => wordOf 0x05 i
  | .reserved00 operand => wordOf 0x00 operand
  | .reserved06 opcode operand => wordOf opcode operand
  | .reserved08 opcode operand => wordOf opcode operand
  | .reserved10 opcode operand => wordOf opcode operand
  | .reserved20 opcode operand => wordOf opcode operand
  | .reserved40 opcode operand => wordOf opcode operand
  | .reserved80 opcode operand => wordOf opcode operand

/-- The command as the byte-pair transport carries it: OPCODE first (R70). -/
def encodeBytes (i : Instr) : List Byte := [opcodeOf (encode i), operandOf (encode i)]

/-- The mask and the pattern of a command's row in spec/opcode_table.json. -/
def tableRow : Instr → CommandWord × CommandWord
  | .start _ => (0xFF00, 0x0100)
  | .char _ => (0xFF00, 0x0200)
  | .finish _ => (0xFF00, 0x0300)
  | .readStatus _ => (0xFF00, 0x0400)
  | .readOut _ => (0xFF00, 0x0500)
  | .reserved00 _ => (0xFF00, 0x0000)
  | .reserved06 _ _ => (0xFE00, 0x0600)
  | .reserved08 _ _ => (0xF800, 0x0800)
  | .reserved10 _ _ => (0xF000, 0x1000)
  | .reserved20 _ _ => (0xE000, 0x2000)
  | .reserved40 _ _ => (0xC000, 0x4000)
  | .reserved80 _ _ => (0x8000, 0x8000)

/-- A command word numbered as spec/opcode_table.json numbers it (bit 0 the least significant bit of the word); every row
has 16 bits, and the parallel word has no byte order (R70). -/
def decodeTableWord (nbits w : Nat) : Option Instr :=
  if nbits ≤ 16 ∧ w < 2 ^ nbits then some (decode (BitVec.ofNat 16 w)) else none

end Sys2Proof
end

