-- ==== Sys2Proof/Machine/Schedule.lean ====
section
/-! DEFINITION. Which agent moves next (44_commands.md R180; 20_memory.md R62; 70_reset_and_hazards.md R240), and what the
environment's fields become when it does. -/

namespace Sys2Proof.Machine

/-- The command at the head of the host's stream, decoded (R180). -/
def nextCommand (s : State) : Option Instr := s.stream.head?.map decode

/-- The level of the reset input at this step (R240; log 4). -/
def resetAsserted (s : State) : Bool := s.resetIn.headD false

/-- Whose turn it is. Reset overrides both agents (60_exceptions.md R213). Outside BUSY only the host is enabled, when it
has a command. In BUSY the engine is enabled, and so is the host when its next command is a read (R180); the schedule
decides between the two (log 3). A held command leaves the turn to the engine. -/
def nextTurn (s : State) : Turn :=
  if resetAsserted s then .reset
  else match s.phase, nextCommand s with
    | .busy, some i => if i.isRead ∧ s.slack ≠ 0 then .host i else .engine
    | .busy, none => .engine
    | _, some i => .host i
    | _, none => .idle

/-- One entry of the reset input's timeline passes with each step (log 4). -/
def clockReset (s : State) : State := { s with resetIn := s.resetIn.tail }

/-- A host read taken while the engine is enabled uses up one of the reads the engine yields to (log 3). -/
def takePoll (s : State) : State := if s.phase = .busy then { s with slack := s.slack - 1 } else s

/-- The word put at the head of the host's stream, with what its fetch needs: the reset input not asserted at the next step,
and the engine yielding to a read if it is running (log 1). -/
def presentCommand (w : CommandWord) (s : State) : State :=
  { s with
    stream := w :: s.stream
    resetIn := if resetAsserted s then false :: s.resetIn.tail else s.resetIn
    slack := if s.slack = 0 then 1 else s.slack }

end Sys2Proof.Machine
end

