-- ==== Sys2Proof/Machine/Step.lean ====
section
/-! DEFINITION. One step of the block: the agent whose turn it is moves (44_commands.md R180). -/

namespace Sys2Proof.Machine

/-- The step: reset, one host step, one engine step, or waiting for a command (log 7). -/
def step (s : State) : Host.Outcome State Fault Refusal :=
  match nextTurn s with
  | .reset => .next (applyReset (clockReset s))
  | .host i => exec i (takePoll (clockReset s))
  | .engine => .next (engineStep (clockReset s))
  | .idle => .next (clockReset s)

/-- The state with the table word w presented as the host's next command (log 1). From a state whose PHASE is not BUSY, and
from any state for a read, the next step performs it; a state-changing command in BUSY holds (R180). -/
def State.withFetchWord (s : State) (nbits w : Nat) : State := presentCommand (BitVec.ofNat 16 (w % 2 ^ nbits)) s

end Sys2Proof.Machine
end

