-- ==== Sys2Proof/Machine/Driver.lean ====
section
/-! DEFINITION. The host's side of the interface, as pure functions over words and responses: the pseudo-commands FEED,
WAIT, READ_DIGEST and HASH (30_encoding.md R79, R80) and the driver's mapping of ERR (60_exceptions.md R214). The block
does not contain them. -/

namespace Sys2Proof.Machine

/-- `FEED "<text>"`: one CHAR for each byte of the text, in order (R79, 20_memory.md R56). -/
def feed (t : List Byte) : List CommandWord := t.map fun c => encode (.char c)

/-- `READ_DIGEST`: READ_OUT 0 to READ_OUT 63 (R79). -/
def readDigest : List CommandWord := (List.range 64).map fun i => encode (.readOut (BitVec.ofNat 8 i))

/-- The words one text is sent with: START, its characters, FINISH (R79 HASH up to WAIT; 44_commands.md R193). -/
def hashCommands (t : List Byte) : List CommandWord := encode (.start 0) :: feed t ++ [encode (.finish 0)]

/-- `WAIT` repeats READ_STATUS until `response[2:0] ≠ 2` (R79): whether this response ends it. -/
def waitOver (response : Byte) : Bool := response.extractLsb' 0 3 ≠ 2

/-- `HASH` goes on to READ_DIGEST "if that READ_STATUS returned 0x03" (R79). -/
def digestReady (response : Byte) : Bool := response = 0x03

/-- What the keccak256 function returned, from HASH's last READ_STATUS and READ_DIGEST's responses (R80); none where the
status is no outcome of HASH. -/
def hashResult (status : Byte) (digest : List Byte) : Option (Except HexError (List Byte)) :=
  if status = 0x03 then some (.ok digest)
  else if status = 0x0C then some (.error .invalidLength)
  else if status = 0x14 then some (.error .invalidCharacter)
  else none

/-- The reason a driver reports for an ERR (R214); PROTOCOL_ERROR's message is the driver's own. -/
def driverReason : Err → Option String
  | .none => none
  | .invalidLength => some "odd-length input"
  | .invalidCharacter => some "non-hex character"
  | .protocolError => none

end Sys2Proof.Machine
end

