-- ==== Sys2Proof/Safety.lean ====
section
/-! DEFINITION. What holds of every state a run reaches: the invariants of 10_state.md R42, and what OUT shows in DONE
(44_commands.md R191, 43_formatter.md R172); and runs of many steps. -/

namespace Sys2Proof.Machine

/-- R42, clause by clause. PHASE ∈ {0..4} and ERR ∈ {0..3} hold by their types (log 8). -/
structure StateInv (s : State) : Prop where
  /-- R42.1: FILL ≤ 135. -/
  fill_le : s.fill.toNat ≤ 135
  /-- R42.1: ROUND ≤ 23. -/
  round_le : s.round.toNat ≤ 23
  /-- R42.2: ERR ≠ NONE ⇔ PHASE = ERROR. -/
  err_iff : s.err ≠ .none ↔ s.phase = .error
  /-- R42.3: PHASE ≠ DONE ⇒ OUT[i] = 0x00 for all i. -/
  out_zero : s.phase ≠ .done → s.out = zeroOut
  /-- R42.4: PHASE ≠ ABSORB ⇒ NIBP = 0 and HI = 0. -/
  nibble_absorb : s.phase ≠ .absorb → s.nibp = false ∧ s.hi = 0
  /-- R42.5: NIBP = 0 ⇒ HI = 0. -/
  hi_zero : s.nibp = false → s.hi = 0
  /-- R42.6: PHASE ≠ BUSY ⇒ ROUND = 0 and FINAL = 0. -/
  engine_busy : s.phase ≠ .busy → s.round = 0 ∧ s.final = false
  /-- R42.7: PHASE ∈ {IDLE, ERROR} ⇒ A = 0 and FILL = 0. -/
  closed_zero : s.phase = .idle ∨ s.phase = .error → s.a = zeroLanes ∧ s.fill = 0
  /-- R42.8: PHASE = BUSY ⇒ FILL = 0. -/
  busy_fill : s.phase = .busy → s.fill = 0

/-- In DONE, OUT is the formatted digest of the state A that the final permutation left (R191). -/
def DoneShowsDigest (s : State) : Prop := s.phase = .done → s.out = encodeDigest (squeeze s.a)

/-- k steps of the machine, stopping at the first fault or refusal. -/
def runSteps : Nat → State → Host.Outcome State Fault Refusal
  | 0, s => .next s
  | k + 1, s =>
    match step s with
    | .next t => runSteps k t
    | .fault r => .fault r
    | .refused r => .refused r

/-- A character of a digest: one of [0-9a-f] (43_formatter.md R172). -/
def isDigestChar (b : Byte) : Bool := (0x30 ≤ b && b ≤ 0x39) || (0x61 ≤ b && b ≤ 0x66)

end Sys2Proof.Machine
end

