-- ==== Sys2Proof/Certificates/Slice0/Obligations.lean ====
section
/-! DEFINITION. The statements for the provers. A record update names every field that changes, so every field it does not
name is stated to be unchanged: that is the frame. `slack` and `draw` are the model's own scheduling fields (log 3): where
they change, the statement holds for whatever value `slack` takes. -/

open Sys2Proof Sys2Proof.Machine

/-! ## Words of the statements -/

/-- The command at the head of the stream (log 1) is taken and v is its response (log 2). -/
def Sys2Proof.Claims.answered (v : Byte) (s : State) : State :=
  { s with stream := s.stream.tail, resps := s.resps ++ [v] }

/-- Every register zero but PHASE and ERR; the stream, the responses, the reset input and the schedule stay. -/
def Sys2Proof.Claims.cleared (p : Phase) (e : Err) (s : State) : State :=
  { s with
    a := Vector.replicate 25 0, fill := 0, nibp := false, hi := 0, round := 0, final := false, phase := p, err := e,
    out := Vector.replicate 64 0 }

/-- The response to the command that raises: 0x04 | (E << 3) (60_exceptions.md R211). -/
def Sys2Proof.Claims.errorResponse : Err → Byte
  | .none => 0x04
  | .invalidLength => 0x0C
  | .invalidCharacter => 0x14
  | .protocolError => 0x1C

/-- The state after a command has raised E (R211). -/
def Sys2Proof.Claims.raised (e : Err) (s : State) : State :=
  Sys2Proof.Claims.answered (Sys2Proof.Claims.errorResponse e) (Sys2Proof.Claims.cleared .error e s)

/-- The rows CHAR, FINISH and reserved of 44_commands.md R181 outside ABSORB: PROTOCOL_ERROR in IDLE and DONE, hold in BUSY
(where exec answers the same state, log 5), ignored in ERROR. -/
def Sys2Proof.Claims.OutsideAbsorb (i : Instr) (s : State) : Prop :=
  (s.phase = .idle ∨ s.phase = .done → exec i s = .next (Sys2Proof.Claims.raised .protocolError s)) ∧
  (s.phase = .busy → exec i s = .next s) ∧
  (s.phase = .error → exec i s = .next (Sys2Proof.Claims.answered s.status s))

/-- The reset input is not asserted at this step (log 4). -/
def Sys2Proof.Claims.NoReset (s : State) : Prop := s.resetIn.headD false = false

/-- The reset input's timeline moves on by one step (log 4). -/
def Sys2Proof.Claims.tick (s : State) : State := { s with resetIn := s.resetIn.tail }

/-- k steps of the machine from s end in t. -/
def Sys2Proof.Claims.Runs (k : Nat) (s t : State) : Prop := runSteps k s = .next t

/-- One hex character, whichever case: upper-case letter digits become lower-case. -/
def Sys2Proof.Claims.lowerHex (c : Byte) : Byte := if 0x41 ≤ c ∧ c ≤ 0x46 then c + 0x20 else c

/-- The incremental form (42_sponge.md, "The incremental form equals hash"): one message byte XORed into S at position n, and
KeccakF applied when that fills the block. -/
def Sys2Proof.Claims.feedByte (p : Lanes × Nat) (b : Byte) : Lanes × Nat :=
  if p.2 = 135 then (keccakF (xorS p.1 135 b), 0) else (xorS p.1 p.2 b, p.2 + 1)

open Sys2Proof.Claims

/-! ## Reset and the invariants -/

/-- 70_reset_and_hazards.md R240 (values: 10_state.md R41): in every phase, an asserted reset input makes the step the reset:
all state at its reset value, no response, no command consumed; a command held at the head of the stream is taken in IDLE
at the next step with reset over, where CHAR and FINISH raise PROTOCOL_ERROR and START starts normally; the initial state
is that reset state. The model's choices in it: the reset input is a list of levels, one entry a step, and is not asserted
where the list has ended (log 4); the stream and the responses are lists, empty in State.reset (log 1, log 2). -/
def Obligations.ResetClearsEverythingInEveryPhase : Prop :=
  (∀ (s : State) (later : List Bool), s.resetIn = true :: later →
    step s = .next { cleared .idle .none s with resetIn := later }) ∧
  (∀ (s : State) (w : CommandWord) (rest : List CommandWord), s.resetIn = [true] → s.stream = w :: rest →
    let t := { cleared .idle .none s with resetIn := [] }
    step s = .next t ∧ step t = exec (decode w) t ∧
    ((∃ c, decode w = .char c) ∨ (∃ o, decode w = .finish o) → step t = .next (raised .protocolError t)) ∧
    ((∃ o, decode w = .start o) → step t = .next (answered 0x01 (cleared .absorb .none t)))) ∧
  (cleared .idle .none State.reset = State.reset ∧ State.reset.stream = [] ∧ State.reset.resps = [])

/-- The reset state satisfies the invariants of 10_state.md section 9. -/
def Obligations.ResetStateMeetsTheInvariants : Prop := StateInv State.reset ∧ DoneShowsDigest State.reset

/-- 10_state.md section 9, "Every reachable state satisfies these invariants": every step keeps all eight of them. -/
def Obligations.StepKeepsTheInvariants : Prop :=
  ∀ s t : State, StateInv s → step s = .next t → StateInv t

/-- 44_commands.md section 4 (complete): in DONE, OUT is the formatted first 32 bytes of the state A that the final
permutation left, and every step keeps that so. -/
def Obligations.StepKeepsTheDigestInDone : Prop :=
  ∀ s t : State, DoneShowsDigest s → step s = .next t → DoneShowsDigest t

/-- 93_implementation_defined.md part 1: no behaviour of the block is a fault, and every command word has a defined outcome in
every phase. -/
def Obligations.EveryStepAnswersANextState : Prop := ∀ s : State, ∃ t : State, step s = .next t

/-! ## Encoding -/

/-- Decoding the word of a well-formed command gives it back, and so does the byte-pair transport, OPCODE first, with the
bytes after it untouched. -/
def Obligations.DecodeOfEncodeIsTheCommand : Prop :=
  ∀ i : Instr, i.wellFormed = true →
    decode (encode i) = i ∧ ∀ rest : List Byte, decodeBytes (encodeBytes i ++ rest) = .ok (i, rest)

/-- 30_encoding.md R75: the decoder is total, and each command word is the word of exactly one well-formed command, whatever
its operand. -/
def Obligations.EveryWordIsExactlyOneCommand : Prop :=
  ∀ w : CommandWord,
    (decode w).wellFormed = true ∧ encode (decode w) = w ∧
    (∀ i : Instr, i.wellFormed = true → encode i = w → i = decode w) ∧
    w &&& (tableRow (decode w)).1 = (tableRow (decode w)).2

/-- 30_encoding.md R72 and R81: OPCODE, the high byte of the word, alone selects the command; the low byte is its operand. -/
def Obligations.OpcodeAloneSelectsTheCommand : Prop :=
  ∀ w : CommandWord,
    (w.toNat / 256 = 1 → decode w = .start (BitVec.ofNat 8 (w.toNat % 256))) ∧
    (w.toNat / 256 = 2 → decode w = .char (BitVec.ofNat 8 (w.toNat % 256))) ∧
    (w.toNat / 256 = 3 → decode w = .finish (BitVec.ofNat 8 (w.toNat % 256))) ∧
    (w.toNat / 256 = 4 → decode w = .readStatus (BitVec.ofNat 8 (w.toNat % 256))) ∧
    (w.toNat / 256 = 5 → decode w = .readOut (BitVec.ofNat 8 (w.toNat % 256))) ∧
    (w.toNat / 256 = 0 ∨ 6 ≤ w.toNat / 256 → (decode w).isReserved = true)

/-- The worked encodings of 30_encoding.md section 4, and one word of each reserved row. -/
def Obligations.WorkedWordsDecode : Prop :=
  decode 0x0100 = .start 0x00 ∧ decode 0x0230 = .char 0x30 ∧ decode 0x0261 = .char 0x61 ∧ decode 0x0246 = .char 0x46 ∧
  decode 0x0220 = .char 0x20 ∧ decode 0x02C3 = .char 0xC3 ∧ decode 0x0300 = .finish 0x00 ∧
  decode 0x0400 = .readStatus 0x00 ∧ decode 0x0500 = .readOut 0x00 ∧ decode 0x053F = .readOut 0x3F ∧
  decode 0x0000 = .reserved00 0x00 ∧ decode 0x0700 = .reserved06 0x07 0x00 ∧ decode 0x0F12 = .reserved08 0x0F 0x12 ∧
  decode 0x1000 = .reserved10 0x10 0x00 ∧ decode 0x3FFF = .reserved20 0x3F 0xFF ∧ decode 0x4001 = .reserved40 0x40 0x01 ∧
  decode 0xFF00 = .reserved80 0xFF 0x00

/-! ## The two agents -/

/-- 44_commands.md section 1: with reset not asserted, a step whose host is enabled is exec of the command decoded at the
head of the stream: always outside BUSY; in BUSY for a read, when the schedule (log 3) gives the host the turn. -/
def Obligations.StepRunsTheDecodedCommand : Prop :=
  ∀ (i : Instr) (s : State), i.wellFormed = true → NoReset s → s.stream.head? = some (encode i) →
    (s.phase ≠ .busy → step s = exec i (tick s)) ∧
    (s.phase = .busy → i.isRead = true → s.slack ≠ 0 → step s = exec i { tick s with slack := s.slack - 1 })

/-- 44_commands.md section 1: in BUSY, whatever command the host offers, the engine steps unless the schedule (log 3) gives
the turn to a read; a held command stays at the head of the stream and gets no response. -/
def Obligations.EngineStepsWhileBusyAndCommandsHold : Prop :=
  ∀ s : State, NoReset s → s.phase = .busy →
    (∀ w, s.stream.head? = some w → (decode w).isRead = true → s.slack = 0) →
    step s = .next (engineStep (tick s)) ∧ (engineStep (tick s)).stream = s.stream ∧
      (engineStep (tick s)).resps = s.resps

/-- The model's choice (log 7): with no command, no permutation running and no reset, a step changes no register; the block
waits (20_memory.md section 4, "After reset it waits in PHASE = IDLE for a START command"). -/
def Obligations.BlockWaitsForACommand : Prop :=
  ∀ s : State, NoReset s → s.phase ≠ .busy → s.stream = [] → step s = .next (tick s)

/-- 20_memory.md section 5: a step either takes the command at the head of the stream and returns one response for it, after
those returned before, or takes none and returns none. -/
def Obligations.OneResponseForEachCommandInOrder : Prop :=
  ∀ s t : State, step s = .next t →
    (t.stream = s.stream ∧ t.resps = s.resps) ∨
    (∃ (w : CommandWord) (v : Byte), s.stream = w :: t.stream ∧ t.resps = s.resps ++ [v] ∧ NoReset s)

/-! ## The commands -/

/-- 44_commands.md R182: START, the words 0x01xx, outside BUSY puts every register at zero, opens a computation and responds
0x01, whatever the state before and whatever its operand; in BUSY it holds. That exec then answers the same state is the
model's choice (log 5: 44_commands.md section 1 gives a held command no host step). -/
def Obligations.StartOpensAComputation : Prop :=
  ∀ (operand : Byte) (s : State),
    decode (0x0100 ||| operand.setWidth 16) = .start operand ∧
    (s.phase ≠ .busy → exec (.start operand) s = .next (answered 0x01 (cleared .absorb .none s))) ∧
    (s.phase = .busy → exec (.start operand) s = .next s)

/-- 44_commands.md R183, with R188 for the byte: CHAR in ABSORB raises on a byte that is no hex digit, holds the first digit
of a pair, and XORs the completed byte into S[FILL], starting a permutation when it fills the block. (ERR = NONE and
FILL ≤ 135 in every reachable state of ABSORB, 10_state.md section 9.) The model's choices in it: exec of a held command
answers the same state (log 5), and the scheduling fields, draw counting up with slack left free (log 3). -/
def Obligations.CharTakesOneCharacter : Prop :=
  ∀ (c : Byte) (s : State),
    OutsideAbsorb (.char c) s ∧
    (s.phase = .absorb → s.err = .none → s.fill.toNat ≤ 135 →
      (valid c = false → exec (.char c) s = .next (raised .invalidCharacter s)) ∧
      (valid c = true → s.nibp = false →
        exec (.char c) s = .next (answered 0x01 { s with hi := hexval c, nibp := true })) ∧
      (valid c = true → s.nibp = true → s.fill.toNat < 135 →
        exec (.char c) s = .next (answered 0x01 { s with
          a := xorS s.a s.fill.toNat (BitVec.ofNat 8 (16 * s.hi.toNat + (hexval c).toNat)), hi := 0, nibp := false
          fill := BitVec.ofNat 8 (s.fill.toNat + 1) })) ∧
      (valid c = true → s.nibp = true → s.fill.toNat = 135 →
        ∃ slack, exec (.char c) s = .next (answered 0x02 { s with
          a := xorS s.a 135 (BitVec.ofNat 8 (16 * s.hi.toNat + (hexval c).toNat)), hi := 0, nibp := false
          fill := 0, round := 0, final := false, phase := .busy, slack := slack, draw := s.draw + 1 })))

/-- 44_commands.md R184: FINISH in ABSORB raises INVALID_LENGTH when a nibble is pending; otherwise it XORs 0x01 into S[FILL]
and 0x80 into S[135] and starts the final permutation. The model's choices in it: exec of a held command answers the same
state (log 5); the scheduling fields, draw counting up with slack left free (log 3); and, for FILL > 135, which no run
reaches (10_state.md section 9), that it XORs at that position all the same (log 6). -/
def Obligations.FinishPadsOrRaises : Prop :=
  ∀ (operand : Byte) (s : State),
    OutsideAbsorb (.finish operand) s ∧
    (s.phase = .absorb → s.err = .none →
      (s.nibp = true → exec (.finish operand) s = .next (raised .invalidLength s)) ∧
      (s.nibp = false →
        ∃ slack, exec (.finish operand) s = .next (answered 0x02 { s with
          a := xorS (xorS s.a s.fill.toNat 0x01) 135 0x80, fill := 0, round := 0, final := true, phase := .busy
          slack := slack, draw := s.draw + 1 })))

/-- 44_commands.md R185: READ_STATUS, the words 0x04xx, responds STATUS in every phase, 0x02 in BUSY, and changes no register.
(ERR = NONE in every reachable state of BUSY, 10_state.md section 9.) -/
def Obligations.ReadStatusRespondsStatus : Prop :=
  ∀ (operand : Byte) (s : State),
    decode (0x0400 ||| operand.setWidth 16) = .readStatus operand ∧
    exec (.readStatus operand) s = .next (answered s.status s) ∧
    (s.phase = .busy → s.err = .none → exec (.readStatus operand) s = .next (answered 0x02 s))

/-- 44_commands.md R186: READ_OUT i responds OUT[i] in DONE for i < 64 and 0x00 otherwise, in every phase, and changes no
register. -/
def Obligations.ReadOutRespondsOneCharacter : Prop :=
  ∀ (i : Byte) (s : State),
    (∀ h : i.toNat < 64, s.phase = .done → exec (.readOut i) s = .next (answered s.out[i.toNat] s)) ∧
    (¬ (s.phase = .done ∧ i.toNat < 64) → exec (.readOut i) s = .next (answered 0x00 s))

/-- 44_commands.md R187: every reserved opcode raises PROTOCOL_ERROR in IDLE, ABSORB and DONE, with response 0x1C, is ignored in
ERROR and holds in BUSY; and every word whose OPCODE is none of 0x01..0x05 is one. That exec of a held command answers the
same state is the model's choice (log 5: 44_commands.md section 1 gives it no host step). -/
def Obligations.ReservedOpcodesRaiseProtocolError : Prop :=
  (∀ (i : Instr) (s : State), i.isReserved = true →
    OutsideAbsorb i s ∧ (s.phase = .absorb → exec i s = .next (raised .protocolError s))) ∧
  (∀ w : CommandWord, w.toNat / 256 = 0 ∨ 6 ≤ w.toNat / 256 → (decode w).isReserved = true) ∧
  (∀ s : State, (raised .protocolError s).resps = s.resps ++ [0x1C])

/-- 30_encoding.md section 2: START, FINISH and READ_STATUS are the same command whatever their operand. -/
def Obligations.IgnoredOperandsChangeNothing : Prop :=
  ∀ (x y : Byte) (s : State),
    exec (.start x) s = exec (.start y) s ∧ exec (.finish x) s = exec (.finish y) s ∧
    exec (.readStatus x) s = exec (.readStatus y) s

/-- 10_state.md R33: STATUS[2:0] is the code of PHASE, [4:3] the code of ERR, [7:5] zero. -/
def Obligations.StatusHoldsPhaseAndError : Prop :=
  ∀ s : State,
    s.status.toNat % 8 = (match s.phase with | .idle => 0 | .absorb => 1 | .busy => 2 | .done => 3 | .error => 4) ∧
    s.status.toNat / 8 % 4 =
      (match s.err with | .none => 0 | .invalidLength => 1 | .invalidCharacter => 2 | .protocolError => 3) ∧
    s.status.toNat / 32 = 0

/-- 10_state.md section 4: under the invariants STATUS is one of seven values, and each says which phase and error it is. -/
def Obligations.ReachableStatusValues : Prop :=
  ∀ s : State, StateInv s →
    (s.phase = .idle ∧ s.status = 0x00) ∨ (s.phase = .absorb ∧ s.status = 0x01) ∨ (s.phase = .busy ∧ s.status = 0x02) ∨
    (s.phase = .done ∧ s.status = 0x03) ∨ (s.phase = .error ∧ s.err = .invalidLength ∧ s.status = 0x0C) ∨
    (s.phase = .error ∧ s.err = .invalidCharacter ∧ s.status = 0x14) ∨
    (s.phase = .error ∧ s.err = .protocolError ∧ s.status = 0x1C)

/-! ## Errors -/

/-- 60_exceptions.md R211: raise clears every register, sets ERR and PHASE = ERROR and responds 0x04 | (E << 3); and it is the
only way into the ERROR phase. That the reset input's timeline moves on by one entry with the step is the model's choice
(log 4). -/
def Obligations.RaiseIsTheOnlyWayIntoError : Prop :=
  (∀ (e : Err) (s : State), e ≠ .none → raise e s = raised e s) ∧
  (∀ s t : State, step s = .next t → s.phase ≠ .error → t.phase = .error →
    ∃ e, e ≠ .none ∧ t = raised e (tick s))

/-- 60_exceptions.md section 2 (which command raises what, in which phase): a step that enters ERROR is one of these. -/
def Obligations.EachErrorHasItsCause : Prop :=
  ∀ s t : State, step s = .next t → s.phase ≠ .error → t.phase = .error →
    NoReset s ∧ ∃ (w : CommandWord), s.stream.head? = some w ∧
      ((∃ c, decode w = .char c ∧ s.phase = .absorb ∧ valid c = false ∧ t.err = .invalidCharacter) ∨
       (∃ o, decode w = .finish o ∧ s.phase = .absorb ∧ s.nibp = true ∧ t.err = .invalidLength) ∨
       ((∃ c, decode w = .char c) ∧ (s.phase = .idle ∨ s.phase = .done) ∧ t.err = .protocolError) ∨
       ((∃ o, decode w = .finish o) ∧ (s.phase = .idle ∨ s.phase = .done) ∧ t.err = .protocolError) ∨
       ((decode w).isReserved = true ∧ (s.phase = .idle ∨ s.phase = .absorb ∨ s.phase = .done) ∧
          t.err = .protocolError))

/-- 60_exceptions.md R217: the only exits from ERROR are START, to ABSORB as any START, and reset, to IDLE, both with ERR = NONE;
any other step keeps the first error and every register. The reset input's timeline, one entry a step, is the model's
choice (log 4). -/
def Obligations.FirstErrorStaysUntilStartOrReset : Prop :=
  ∀ s t : State, s.phase = .error → step s = .next t →
    (t.phase = .error ∧ t = { s with stream := t.stream, resps := t.resps, resetIn := s.resetIn.tail }) ∨
    (t = answered 0x01 (cleared .absorb .none (tick s)) ∧ NoReset s ∧
      ∃ (w : CommandWord) (o : Byte), s.stream.head? = some w ∧ decode w = .start o) ∨
    (t = cleared .idle .none (tick s) ∧ ¬ NoReset s)

/-- 44_commands.md R189: in ERROR, CHAR, FINISH and reserved opcodes change no state and respond STATUS, which is 0x0C, 0x14 or
0x1C. -/
def Obligations.ErrorIgnoresCommands : Prop :=
  ∀ (i : Instr) (s : State), s.phase = .error → s.err ≠ .none →
    (∃ c, i = .char c) ∨ (∃ o, i = .finish o) ∨ i.isReserved = true →
    exec i s = .next (answered s.status s) ∧ s.status = errorResponse s.err

/-- BUSY is left only by reset, to IDLE (70_reset_and_hazards.md section 1), or by the engine step that ends round 23
(44_commands.md section 4); nothing else happens asynchronously to the host (60_exceptions.md section 5). -/
def Obligations.OnlyTheLastRoundOrResetLeavesBusy : Prop :=
  ∀ s t : State, s.phase = .busy → s.round.toNat ≤ 23 → step s = .next t → t.phase ≠ .busy →
    (¬ NoReset s ∧ t.phase = .idle) ∨
    (s.round.toNat = 23 ∧ t.phase = (if s.final then .done else .absorb) ∧ t.stream = s.stream ∧ t.resps = s.resps)

/-- 43_formatter.md and 60_exceptions.md section 4: READ_OUT responds a character of [0-9a-f] in DONE for i < 64, and
otherwise 0x00, which is none, so no partial digest is ever returned. -/
def Obligations.NoPartialDigestIsReturned : Prop :=
  ∀ (i : Byte) (s t : State), DoneShowsDigest s → exec (.readOut i) s = .next t →
    ∃ v, t.resps = s.resps ++ [v] ∧
      (s.phase = .done ∧ i.toNat < 64 → isDigestChar v = true) ∧
      (¬ (s.phase = .done ∧ i.toNat < 64) → isDigestChar v = false)

/-- 10_state.md section 8: what a host reads depends on STATUS and OUT alone: two states that agree on PHASE, ERR and OUT give
every read the same response, whatever A, FILL, NIBP, HI, ROUND and FINAL hold. -/
def Obligations.ReadsSeeOnlyStatusAndOut : Prop :=
  ∀ (i : Instr) (s u : State), i.isRead = true → s.phase = u.phase → s.err = u.err → s.out = u.out →
    ∃ v, exec i s = .next (answered v s) ∧ exec i u = .next (answered v u)

/-! ## The serialized view -/

/-- 20_memory.md section 2: writing byte i of S is read back at i and at no other position. -/
def Obligations.SerializedByteReadsBackWhatWasWritten : Prop :=
  ∀ (a : Lanes) (v : Byte) (i j : Nat), i < 200 → j < 200 →
    sByte (writeS a i v) j = if i = j then v else sByte a j

/-- 20_memory.md section 2: XORing a byte into S is `S[i] <- S[i] ^ b`. -/
def Obligations.XorIntoSIsAWriteOfTheXor : Prop :=
  ∀ (a : Lanes) (b : Byte) (i : Nat), i < 200 → xorS a i b = writeS a i (sByte a i ^^^ b)

/-- 44_commands.md section 3 (absorb_byte): a CHAR that completes a byte changes S at FILL alone, by XOR with that byte; in
particular it writes S[0..135] only, never the capacity. -/
def Obligations.CharChangesOnlyTheByteAtFill : Prop :=
  ∀ (c : Byte) (s : State), s.phase = .absorb → s.fill.toNat ≤ 135 → valid c = true → s.nibp = true →
    ∃ t, exec (.char c) s = .next t ∧
      ∀ i, i < 200 → sByte t.a i =
        if i = s.fill.toNat then sByte s.a i ^^^ BitVec.ofNat 8 (16 * s.hi.toNat + (hexval c).toNat) else sByte s.a i

/-- 44_commands.md section 2 (FINISH): the padding changes S at FILL and 135 alone; at FILL = 135 that byte receives 0x81. -/
def Obligations.FinishChangesOnlyThePaddingBytes : Prop :=
  ∀ (operand : Byte) (s : State), s.phase = .absorb → s.fill.toNat ≤ 135 → s.nibp = false →
    ∃ t, exec (.finish operand) s = .next t ∧
      ∀ i, i < 200 → sByte t.a i =
        if i = 135 then sByte s.a i ^^^ (if s.fill.toNat = 135 then 0x81 else 0x80)
        else if i = s.fill.toNat then sByte s.a i ^^^ 0x01 else sByte s.a i

/-! ## The permutation -/

/-- 41_permutation.md section 1: rotating left by n moves bit z to bit (z + n) mod 64. -/
def Obligations.RotationMovesEachBit : Prop :=
  ∀ (v : Lane) (n z : Nat), n < 64 → z < 64 → (rol64 v n).getLsbD ((z + n) % 64) = v.getLsbD z

/-- 41_permutation.md section 2, θ at bit level (90_conflicts.md C1): each bit is XORed with the parities of the bit columns
(x-1, z) and (x+1, z-1) of the array before the step. -/
def Obligations.ThetaAddsTheTwoNeighbourColumns : Prop :=
  ∀ (a : Lanes) (x y z : Nat), x < 5 → y < 5 → z < 64 →
    (lane (theta a) x y).getLsbD z =
      ((lane a x y).getLsbD z ^^
        ((List.range 5).foldl (fun p y' => p ^^ (lane a ((x + 4) % 5) y').getLsbD z) false) ^^
        ((List.range 5).foldl (fun p y' => p ^^ (lane a ((x + 1) % 5) y').getLsbD ((z + 63) % 64)) false))

/-- 41_permutation.md section 2 and 70_reset_and_hazards.md section 3: ρ rotates each lane by the offset of its position before π
moves it to (y, (2x + 3y) mod 5). -/
def Obligations.RhoThenPiMovesEachRotatedLane : Prop :=
  ∀ (a : Lanes) (x y : Nat), x < 5 → y < 5 →
    lane (piStep (rhoStep a)) y ((2 * x + 3 * y) % 5) = rol64 (lane a x y) (rho x y)

/-- 41_permutation.md section 2, χ and ι at bit level: every bit of a round's last two steps read from the array before them. -/
def Obligations.ChiAndIotaCombineOldLanes : Prop :=
  ∀ (a : Lanes) (ir x y z : Nat), x < 5 → y < 5 → z < 64 →
    (lane (iota (chi a) ir) x y).getLsbD z =
      ((lane a x y).getLsbD z ^^
        (!(lane a ((x + 1) % 5) y).getLsbD z && (lane a ((x + 2) % 5) y).getLsbD z) ^^
        (decide (x = 0 ∧ y = 0) && (rc ir).getLsbD z))

/-- 41_permutation.md section 4: the tables are the ones the recurrences generate. -/
def Obligations.TablesMatchTheirGenerators : Prop :=
  (∀ ir, ir < 24 → rc ir = rcGenerated ir) ∧
  rho 0 0 = 0 ∧ (∀ p ∈ rhoWalk 24 0 1 0, rho p.1 p.2.1 = p.2.2) ∧ (rhoWalk 24 0 1 0).length = 24

/-! ## The engine -/

/-- 44_commands.md R190 and R191: an engine step runs round ROUND on A; before round 23 it counts ROUND up; round 23 ends the
permutation, into ABSORB, or, when FINAL = 1, into DONE with OUT the formatted digest. No other register changes. The
scheduling fields, draw counting up with slack left free before another round, are the model's choice (log 3). -/
def Obligations.EngineStepRunsOneRound : Prop :=
  ∀ s : State, s.round.toNat ≤ 23 →
    (s.round.toNat < 23 → ∃ slack,
      engineStep s = { s with
        a := roundStep s.a s.round.toNat, round := BitVec.ofNat 5 (s.round.toNat + 1), slack := slack, draw := s.draw + 1 }) ∧
    (s.round.toNat = 23 → s.final = false →
      engineStep s = { s with a := roundStep s.a 23, round := 0, phase := .absorb }) ∧
    (s.round.toNat = 23 → s.final = true →
      engineStep s = { s with
        a := roundStep s.a 23, round := 0, final := false, phase := .done
        out := encodeDigest (squeeze (roundStep s.a 23)) })

/-- 44_commands.md section 4 with 41_permutation.md section 4: 24 engine steps from ROUND = 0 run rounds 0, 1, …, 23 and give
KeccakF(A); the block is BUSY in between, and DONE with the digest or ABSORB after. -/
def Obligations.TwentyFourEngineStepsAreKeccakF : Prop :=
  ∀ s : State, s.phase = .busy → s.round = 0 →
    (∀ k, k < 24 → (Nat.repeat engineStep k s).phase = .busy ∧ (Nat.repeat engineStep k s).round = BitVec.ofNat 5 k) ∧
    (Nat.repeat engineStep 24 s).a = keccakF s.a ∧
    (Nat.repeat engineStep 24 s).round = 0 ∧
    (Nat.repeat engineStep 24 s).final = false ∧
    (s.final = true → (Nat.repeat engineStep 24 s).phase = .done ∧
      (Nat.repeat engineStep 24 s).out = encodeDigest (squeeze (keccakF s.a))) ∧
    (s.final = false → (Nat.repeat engineStep 24 s).phase = .absorb ∧ (Nat.repeat engineStep 24 s).out = s.out)

/-- 44_commands.md section 4 (Progress): from any BUSY state, whatever commands the host offers and whatever the schedule, BUSY
ends after exactly the rounds still to run; only reads were taken meanwhile. The schedule, and draw, by which the rounds are
counted, are the model's choice (log 3); resetIn = [] says that reset is not asserted (log 4). -/
def Obligations.BusyEndsUnderEverySchedule : Prop :=
  ∀ s : State, s.phase = .busy → s.round.toNat ≤ 23 → s.resetIn = [] →
    ∃ (k : Nat) (t : State) (reads : List CommandWord), Runs k s t ∧
      t.phase = (if s.final then .done else .absorb) ∧
      t.a = (List.range' s.round.toNat (24 - s.round.toNat)).foldl roundStep s.a ∧
      t.draw = s.draw + (23 - s.round.toNat) ∧
      s.stream = reads ++ t.stream ∧ (∀ w ∈ reads, (decode w).isRead = true) ∧
      t.resps.length = s.resps.length + reads.length

/-- 70_reset_and_hazards.md section 4: a command that holds is accepted after the rounds still to run, with nothing lost. -/
def Obligations.HeldCommandIsAcceptedAfterTheRounds : Prop :=
  ∀ (s : State) (w : CommandWord) (rest : List CommandWord), s.phase = .busy → s.round.toNat ≤ 23 → s.resetIn = [] →
    s.stream = w :: rest → (decode w).isRead = false →
    ∃ t, Runs (24 - s.round.toNat) s t ∧ t.phase ≠ .busy ∧ t.stream = w :: rest ∧ t.resps = s.resps ∧
      step t = exec (decode w) t

/-! ## The pure functions -/

/-- 40_hexcodec.md R100: the valid bytes are '0'..'9', 'A'..'F' and 'a'..'f', 22 of the 256. -/
def Obligations.ValidBytesAreTheHexDigits : Prop :=
  (∀ c : Byte, valid c = true ↔
    (0x30 ≤ c.toNat ∧ c.toNat ≤ 0x39) ∨ (0x41 ≤ c.toNat ∧ c.toNat ≤ 0x46) ∨ (0x61 ≤ c.toNat ∧ c.toNat ≤ 0x66)) ∧
  ((List.range 256).filter fun n => valid (BitVec.ofNat 8 n)).length = 22

/-- 40_hexcodec.md R101: the value of each hex digit, in either case. -/
def Obligations.HexDigitValues : Prop :=
  ∀ c : Byte,
    (0x30 ≤ c.toNat ∧ c.toNat ≤ 0x39 → (hexval c).toNat = c.toNat - 0x30) ∧
    (0x41 ≤ c.toNat ∧ c.toNat ≤ 0x46 → (hexval c).toNat = c.toNat - 0x41 + 10) ∧
    (0x61 ≤ c.toNat ∧ c.toNat ≤ 0x66 → (hexval c).toNat = c.toNat - 0x61 + 10)

/-- 40_hexcodec.md (case): two texts that differ only in the case of letter digits give the same result. -/
def Obligations.LetterCaseDoesNotChangeTheResult : Prop :=
  ∀ t u : List Byte, t.map lowerHex = u.map lowerHex → keccak256 t = keccak256 u

/-- 42_sponge.md (keccak256) with 40_hexcodec.md (precedence): an invalid character anywhere gives InvalidCharacter; otherwise an
odd length gives InvalidLength; otherwise the result is the formatted hash of the decoded bytes. -/
def Obligations.KeccakFailsExactlyOnBadText : Prop :=
  ∀ t : List Byte,
    ((∃ c ∈ t, valid c = false) → keccak256 t = .error .invalidCharacter) ∧
    ((∀ c ∈ t, valid c = true) → t.length % 2 = 1 → keccak256 t = .error .invalidLength) ∧
    ((∀ c ∈ t, valid c = true) → t.length % 2 = 0 →
      ∃ m : List Byte, m.length = t.length / 2 ∧ keccak256 t = .ok (encodeDigest (hash m)) ∧
        ∀ n, n < m.length → m.getD n 0 =
          BitVec.ofNat 8 (16 * (hexval (t.getD (2 * n) 0)).toNat + (hexval (t.getD (2 * n + 1) 0)).toNat))

/-- 43_formatter.md: every result is 64 characters of [0-9a-f]; and, with 40_hexcodec.md, decoding it gives the digest bytes
back. -/
def Obligations.FormattedDigestIsLowercaseHex : Prop :=
  ∀ d : Vector Byte 32,
    (∀ (i : Nat) (h : i < 64), isDigestChar (encodeDigest d)[i] = true) ∧
    hexDecode (encodeDigest d).toList = .ok d.toList

/-- 42_sponge.md R150: pad appends q = 136 - (L mod 136) bytes: 0x01, zeros, 0x80; or the single byte 0x81. -/
def Obligations.PaddingBytes : Prop :=
  ∀ m : List Byte, ∃ q, q = 136 - m.length % 136 ∧
    (pad m).length = m.length + q ∧ (pad m).length % 136 = 0 ∧ (pad m).take m.length = m ∧
    (q = 1 → (pad m).drop m.length = [0x81]) ∧
    (q ≠ 1 → (pad m).drop m.length = [0x01] ++ List.replicate (q - 2) 0x00 ++ [0x80])

/-- 42_sponge.md R152: the padded message splits into L/136 + 1 blocks of 136 bytes, in order and with nothing lost. -/
def Obligations.BlocksSplitThePaddedMessage : Prop :=
  ∀ m : List Byte,
    (blocks (pad m)).flatten = pad m ∧ (blocks (pad m)).length = m.length / 136 + 1 ∧
    ∀ b ∈ blocks (pad m), b.length = 136

/-- 42_sponge.md, "The incremental form equals hash": feeding the message byte by byte from the zero state, then XORing 0x01 at
the position reached and 0x80 at 135 and permuting once more, gives the state hash squeezes. -/
def Obligations.IncrementalFormEqualsHash : Prop :=
  ∀ m : List Byte,
    let p := m.foldl feedByte (zeroLanes, 0)
    p.2 = m.length % 136 ∧ keccakF (xorS (xorS p.1 p.2 0x01) 135 0x80) = hashState m

/-! ## The whole block -/

/-- 30_encoding.md section 4: in DONE, READ_DIGEST returns the 64 characters of OUT in order and changes no register. -/
def Obligations.ReadDigestReturnsTheOutput : Prop :=
  ∀ s : State, s.phase = .done → s.resetIn = [] → s.stream = readDigest →
    Runs 64 s { s with stream := [], resps := s.resps ++ s.out.toList }

/-- 44_commands.md section 5, the wrapper contract. Take any text t and any state with PHASE ≠ BUSY whose stream is START, the
characters of t and FINISH, with any reads anywhere between, before and after. Whatever the schedule, the block takes the
whole stream and ends as keccak256(t) says, after 24 · (n / 272 + 1) rounds when that is a digest. The stream in State, the
schedule with draw, by which the rounds are counted, and the reset timeline are the model's choice (log 1, log 3, log 4). -/
def Obligations.HashSequenceComputesKeccak256 : Prop :=
  ∀ (t : List Byte) (s : State) (x y : Byte), s.phase ≠ .busy → s.resetIn = [] →
    (s.stream.map decode).filter (fun i => !i.isRead) = .start x :: t.map .char ++ [.finish y] →
    ∃ (k : Nat) (u : State), Runs k s u ∧ u.stream = [] ∧
      (∀ h, keccak256 t = .ok h →
        u.phase = .done ∧ u.err = .none ∧ u.out = h ∧ u.status = 0x03 ∧ u.draw = s.draw + 24 * (t.length / 272 + 1)) ∧
      (keccak256 t = .error .invalidCharacter →
        u.phase = .error ∧ u.err = .invalidCharacter ∧ u.out = Vector.replicate 64 0 ∧ u.status = 0x14) ∧
      (keccak256 t = .error .invalidLength →
        u.phase = .error ∧ u.err = .invalidLength ∧ u.out = Vector.replicate 64 0 ∧ u.status = 0x0C)
end

