-- ==== Sys2Proof/Laws/Lanes.lean ====
section
/-! SUPPORT. The lane array and its serialized view: reads after writes, and XORing byte strings into S. -/

namespace Sys2Proof.Machine

/-! ## Lanes -/

@[simp] theorem lane_mod_left (a : Lanes) (x y : Nat) : lane a (x % 5) y = lane a x y := by simp [lane]

@[simp] theorem lane_mod_right (a : Lanes) (x y : Nat) : lane a x (y % 5) = lane a x y := by simp [lane]

@[simp] theorem lane_mkLanes (f : Nat → Nat → Lane) (x y : Nat) : lane (mkLanes f) x y = f (x % 5) (y % 5) := by
  have hx : (x % 5 + 5 * (y % 5)) % 5 = x % 5 := by omega
  have hy : (x % 5 + 5 * (y % 5)) / 5 = y % 5 := by omega
  simp [lane, mkLanes, hx, hy]

@[simp] theorem lane_zeroLanes (x y : Nat) : lane zeroLanes x y = 0 := by simp [lane, zeroLanes]

theorem lane_setLane (a : Lanes) (x y x' y' : Nat) (v : Lane) :
    lane (setLane a x y v) x' y' = if x % 5 = x' % 5 ∧ y % 5 = y' % 5 then v else lane a x' y' := by
  have h : (x % 5 + 5 * (y % 5) = x' % 5 + 5 * (y' % 5)) ↔ (x % 5 = x' % 5 ∧ y % 5 = y' % 5) := by omega
  simp only [lane, setLane, Vector.getElem_set, h]

/-- Two arrays with the same 25 lanes are the same array. -/
theorem lanes_ext {a b : Lanes} (h : ∀ x y, x < 5 → y < 5 → lane a x y = lane b x y) : a = b := by
  apply Vector.ext
  intro k hk
  have hk' : k % 5 % 5 + 5 * (k / 5 % 5) = k := by omega
  simpa only [lane, hk'] using h (k % 5) (k / 5) (by omega) (by omega)

theorem mkLanes_lane (a : Lanes) : mkLanes (lane a) = a :=
  lanes_ext fun x y hx hy => by simp

/-! ## The serialized view -/

/-- XOR of a byte at a byte position of a lane, seen at the same and at another byte position. -/
theorem extract_xor_byte (v : Lane) (b : Byte) {i j : Nat} (hi : i < 8) (hj : j < 8) :
    (v ^^^ (b.setWidth 64 <<< (8 * i))).extractLsb' (8 * j) 8 =
      if i = j then v.extractLsb' (8 * j) 8 ^^^ b else v.extractLsb' (8 * j) 8 := by
  split
  · subst i
    ext n hn
    have h1 : ¬ 8 * j + n < 8 * j := by omega
    have h2 : 8 * j + n < 64 := by omega
    simp [hn, h2]
  · ext n hn
    by_cases hlt : j < i
    · have h1 : 8 * j + n < 8 * i := by omega
      simp [h1]
    · have h1 : 8 ≤ 8 * j + n - 8 * i := by omega
      simp [BitVec.getLsbD_of_ge b _ h1]

/-- Position i of S lies in lane i / 8, and two positions of one lane differ in their byte. -/
theorem sByte_xorS (a : Lanes) (b : Byte) {i j : Nat} (hi : i < 200) (hj : j < 200) :
    sByte (xorS a i b) j = if i = j then sByte a j ^^^ b else sByte a j := by
  simp only [sByte, xorS, lane_setLane]
  by_cases hl : i / 8 = j / 8
  · have h := extract_xor_byte (lane a (j / 8 % 5) (j / 8 / 5)) b (i := i % 8) (j := j % 8) (by omega) (by omega)
    have e : (i % 8 = j % 8) ↔ i = j := by omega
    simp only [hl, and_self, if_true, h, e]
  · have hne : ¬ (i / 8 % 5 % 5 = j / 8 % 5 % 5 ∧ i / 8 / 5 % 5 = j / 8 / 5 % 5) := by omega
    have hij : i ≠ j := by omega
    rw [if_neg hne, if_neg hij]

/-- Two arrays with the same 200 bytes of S are the same array. -/
theorem lanes_ext_sByte {a b : Lanes} (h : ∀ i, i < 200 → sByte a i = sByte b i) : a = b := by
  apply lanes_ext
  intro x y hx hy
  apply BitVec.eq_of_getLsbD_eq
  intro z hz
  have hb := h (8 * (x + 5 * y) + z / 8) (by omega)
  have e1 : (8 * (x + 5 * y) + z / 8) / 8 = x + 5 * y := by omega
  have e2 : (8 * (x + 5 * y) + z / 8) % 8 = z / 8 := by omega
  have e3 : (x + 5 * y) % 5 = x := by omega
  have e4 : (x + 5 * y) / 5 = y := by omega
  simp only [sByte, e1, e2, e3, e4] at hb
  have hz' := congrArg (fun v : Byte => v.getLsbD (z % 8)) hb
  have e5 : 8 * (z / 8) + z % 8 = z := by omega
  have e6 : z % 8 < 8 := by omega
  simpa [e5, e6] using hz'

@[simp] theorem xorS_zero (a : Lanes) (i : Nat) : xorS a i 0 = a := by
  apply lanes_ext
  intro x y hx hy
  simp only [xorS, lane_setLane]
  split
  · rename_i h
    obtain ⟨h1, h2⟩ := h
    rw [← lane_mod_left a x y, ← lane_mod_right a (x % 5) y, ← h1, ← h2]
    simp
  · rfl

theorem xorS_xorS_same (a : Lanes) (i : Nat) (b c : Byte) : xorS (xorS a i b) i c = xorS a i (b ^^^ c) := by
  apply lanes_ext
  intro x y hx hy
  simp only [xorS, lane_setLane, and_self, if_true]
  split
  · ext z hz
    simp
    by_cases h : z < 8 * (i % 8) <;> simp [h]
  · rfl

@[simp] theorem xorBytes_nil (a : Lanes) (i : Nat) : xorBytes a i [] = a := rfl

@[simp] theorem xorBytes_cons (a : Lanes) (i : Nat) (b : Byte) (bs : List Byte) :
    xorBytes a i (b :: bs) = xorBytes (xorS a i b) (i + 1) bs := rfl

theorem xorBytes_append (a : Lanes) (i : Nat) (bs cs : List Byte) :
    xorBytes a i (bs ++ cs) = xorBytes (xorBytes a i bs) (i + bs.length) cs := by
  induction bs generalizing a i with
  | nil => simp
  | cons b bs ih =>
    have e : i + 1 + bs.length = i + (bs.length + 1) := by omega
    simp [ih, e]

@[simp] theorem xorBytes_zeros (a : Lanes) (i n : Nat) : xorBytes a i (List.replicate n 0) = a := by
  induction n generalizing i with
  | zero => rfl
  | succ n ih => rw [List.replicate_succ, xorBytes_cons, xorS_zero, ih]

end Sys2Proof.Machine
end

