-- ==== Sys2Proof/Laws/State.lean ====
section
/-! SUPPORT. One lemma for each field and each shared update of the state, so that no later proof unfolds a record
update. -/

namespace Sys2Proof.Machine

/-! ## The status byte of each phase (10_state.md R33) -/

@[simp] theorem statusByte_idle_none : statusByte .idle .none = 0x00 := by decide
@[simp] theorem statusByte_absorb_none : statusByte .absorb .none = 0x01 := by decide
@[simp] theorem statusByte_busy_none : statusByte .busy .none = 0x02 := by decide
@[simp] theorem statusByte_done_none : statusByte .done .none = 0x03 := by decide
@[simp] theorem statusByte_error_length : statusByte .error .invalidLength = 0x0C := by decide
@[simp] theorem statusByte_error_character : statusByte .error .invalidCharacter = 0x14 := by decide
@[simp] theorem statusByte_error_protocol : statusByte .error .protocolError = 0x1C := by decide
@[simp] theorem status_eq (s : State) : s.status = statusByte s.phase s.err := rfl

/-! ## respond -/

@[simp] theorem respond_a (v : Byte) (s : State) : (respond v s).a = s.a := rfl
@[simp] theorem respond_fill (v : Byte) (s : State) : (respond v s).fill = s.fill := rfl
@[simp] theorem respond_nibp (v : Byte) (s : State) : (respond v s).nibp = s.nibp := rfl
@[simp] theorem respond_hi (v : Byte) (s : State) : (respond v s).hi = s.hi := rfl
@[simp] theorem respond_round (v : Byte) (s : State) : (respond v s).round = s.round := rfl
@[simp] theorem respond_final (v : Byte) (s : State) : (respond v s).final = s.final := rfl
@[simp] theorem respond_phase (v : Byte) (s : State) : (respond v s).phase = s.phase := rfl
@[simp] theorem respond_err (v : Byte) (s : State) : (respond v s).err = s.err := rfl
@[simp] theorem respond_out (v : Byte) (s : State) : (respond v s).out = s.out := rfl
@[simp] theorem respond_stream (v : Byte) (s : State) : (respond v s).stream = s.stream.tail := rfl
@[simp] theorem respond_resps (v : Byte) (s : State) : (respond v s).resps = s.resps ++ [v] := rfl
@[simp] theorem respond_resetIn (v : Byte) (s : State) : (respond v s).resetIn = s.resetIn := rfl
@[simp] theorem respond_slack (v : Byte) (s : State) : (respond v s).slack = s.slack := rfl
@[simp] theorem respond_draw (v : Byte) (s : State) : (respond v s).draw = s.draw := rfl

/-! ## respondStatus -/

@[simp] theorem respondStatus_a (s : State) : (respondStatus s).a = s.a := rfl
@[simp] theorem respondStatus_fill (s : State) : (respondStatus s).fill = s.fill := rfl
@[simp] theorem respondStatus_nibp (s : State) : (respondStatus s).nibp = s.nibp := rfl
@[simp] theorem respondStatus_hi (s : State) : (respondStatus s).hi = s.hi := rfl
@[simp] theorem respondStatus_round (s : State) : (respondStatus s).round = s.round := rfl
@[simp] theorem respondStatus_final (s : State) : (respondStatus s).final = s.final := rfl
@[simp] theorem respondStatus_phase (s : State) : (respondStatus s).phase = s.phase := rfl
@[simp] theorem respondStatus_err (s : State) : (respondStatus s).err = s.err := rfl
@[simp] theorem respondStatus_out (s : State) : (respondStatus s).out = s.out := rfl
@[simp] theorem respondStatus_stream (s : State) : (respondStatus s).stream = s.stream.tail := rfl
@[simp] theorem respondStatus_resps (s : State) : (respondStatus s).resps = s.resps ++ [statusByte s.phase s.err] := rfl
@[simp] theorem respondStatus_resetIn (s : State) : (respondStatus s).resetIn = s.resetIn := rfl
@[simp] theorem respondStatus_slack (s : State) : (respondStatus s).slack = s.slack := rfl
@[simp] theorem respondStatus_draw (s : State) : (respondStatus s).draw = s.draw := rfl

/-! ## clearAll -/

@[simp] theorem clearAll_a (p : Phase) (e : Err) (s : State) : (clearAll p e s).a = zeroLanes := rfl
@[simp] theorem clearAll_fill (p : Phase) (e : Err) (s : State) : (clearAll p e s).fill = 0 := rfl
@[simp] theorem clearAll_nibp (p : Phase) (e : Err) (s : State) : (clearAll p e s).nibp = false := rfl
@[simp] theorem clearAll_hi (p : Phase) (e : Err) (s : State) : (clearAll p e s).hi = 0 := rfl
@[simp] theorem clearAll_round (p : Phase) (e : Err) (s : State) : (clearAll p e s).round = 0 := rfl
@[simp] theorem clearAll_final (p : Phase) (e : Err) (s : State) : (clearAll p e s).final = false := rfl
@[simp] theorem clearAll_phase (p : Phase) (e : Err) (s : State) : (clearAll p e s).phase = p := rfl
@[simp] theorem clearAll_err (p : Phase) (e : Err) (s : State) : (clearAll p e s).err = e := rfl
@[simp] theorem clearAll_out (p : Phase) (e : Err) (s : State) : (clearAll p e s).out = zeroOut := rfl
@[simp] theorem clearAll_stream (p : Phase) (e : Err) (s : State) : (clearAll p e s).stream = s.stream := rfl
@[simp] theorem clearAll_resps (p : Phase) (e : Err) (s : State) : (clearAll p e s).resps = s.resps := rfl
@[simp] theorem clearAll_resetIn (p : Phase) (e : Err) (s : State) : (clearAll p e s).resetIn = s.resetIn := rfl
@[simp] theorem clearAll_slack (p : Phase) (e : Err) (s : State) : (clearAll p e s).slack = s.slack := rfl
@[simp] theorem clearAll_draw (p : Phase) (e : Err) (s : State) : (clearAll p e s).draw = s.draw := rfl

/-! ## raise -/

@[simp] theorem raise_a (e : Err) (s : State) : (raise e s).a = zeroLanes := rfl
@[simp] theorem raise_fill (e : Err) (s : State) : (raise e s).fill = 0 := rfl
@[simp] theorem raise_nibp (e : Err) (s : State) : (raise e s).nibp = false := rfl
@[simp] theorem raise_hi (e : Err) (s : State) : (raise e s).hi = 0 := rfl
@[simp] theorem raise_round (e : Err) (s : State) : (raise e s).round = 0 := rfl
@[simp] theorem raise_final (e : Err) (s : State) : (raise e s).final = false := rfl
@[simp] theorem raise_phase (e : Err) (s : State) : (raise e s).phase = .error := rfl
@[simp] theorem raise_err (e : Err) (s : State) : (raise e s).err = e := rfl
@[simp] theorem raise_out (e : Err) (s : State) : (raise e s).out = zeroOut := rfl
@[simp] theorem raise_stream (e : Err) (s : State) : (raise e s).stream = s.stream.tail := rfl
@[simp] theorem raise_resps (e : Err) (s : State) : (raise e s).resps = s.resps ++ [statusByte .error e] := rfl
@[simp] theorem raise_resetIn (e : Err) (s : State) : (raise e s).resetIn = s.resetIn := rfl
@[simp] theorem raise_slack (e : Err) (s : State) : (raise e s).slack = s.slack := rfl
@[simp] theorem raise_draw (e : Err) (s : State) : (raise e s).draw = s.draw := rfl

/-! ## openComputation -/

@[simp] theorem openComputation_a (s : State) : (openComputation s).a = zeroLanes := rfl
@[simp] theorem openComputation_fill (s : State) : (openComputation s).fill = 0 := rfl
@[simp] theorem openComputation_nibp (s : State) : (openComputation s).nibp = false := rfl
@[simp] theorem openComputation_hi (s : State) : (openComputation s).hi = 0 := rfl
@[simp] theorem openComputation_round (s : State) : (openComputation s).round = 0 := rfl
@[simp] theorem openComputation_final (s : State) : (openComputation s).final = false := rfl
@[simp] theorem openComputation_phase (s : State) : (openComputation s).phase = .absorb := rfl
@[simp] theorem openComputation_err (s : State) : (openComputation s).err = .none := rfl
@[simp] theorem openComputation_out (s : State) : (openComputation s).out = zeroOut := rfl
@[simp] theorem openComputation_stream (s : State) : (openComputation s).stream = s.stream.tail := rfl
@[simp] theorem openComputation_resps (s : State) : (openComputation s).resps = s.resps ++ [0x01] := by simp [openComputation]
@[simp] theorem openComputation_resetIn (s : State) : (openComputation s).resetIn = s.resetIn := rfl
@[simp] theorem openComputation_slack (s : State) : (openComputation s).slack = s.slack := rfl
@[simp] theorem openComputation_draw (s : State) : (openComputation s).draw = s.draw := rfl

/-! ## applyReset -/

@[simp] theorem applyReset_a (s : State) : (applyReset s).a = zeroLanes := rfl
@[simp] theorem applyReset_fill (s : State) : (applyReset s).fill = 0 := rfl
@[simp] theorem applyReset_nibp (s : State) : (applyReset s).nibp = false := rfl
@[simp] theorem applyReset_hi (s : State) : (applyReset s).hi = 0 := rfl
@[simp] theorem applyReset_round (s : State) : (applyReset s).round = 0 := rfl
@[simp] theorem applyReset_final (s : State) : (applyReset s).final = false := rfl
@[simp] theorem applyReset_phase (s : State) : (applyReset s).phase = .idle := rfl
@[simp] theorem applyReset_err (s : State) : (applyReset s).err = .none := rfl
@[simp] theorem applyReset_out (s : State) : (applyReset s).out = zeroOut := rfl
@[simp] theorem applyReset_stream (s : State) : (applyReset s).stream = s.stream := rfl
@[simp] theorem applyReset_resps (s : State) : (applyReset s).resps = s.resps := rfl
@[simp] theorem applyReset_resetIn (s : State) : (applyReset s).resetIn = s.resetIn := rfl
@[simp] theorem applyReset_slack (s : State) : (applyReset s).slack = s.slack := rfl
@[simp] theorem applyReset_draw (s : State) : (applyReset s).draw = s.draw := rfl

/-! ## drawSlack -/

@[simp] theorem drawSlack_a (s : State) : (drawSlack s).a = s.a := rfl
@[simp] theorem drawSlack_fill (s : State) : (drawSlack s).fill = s.fill := rfl
@[simp] theorem drawSlack_nibp (s : State) : (drawSlack s).nibp = s.nibp := rfl
@[simp] theorem drawSlack_hi (s : State) : (drawSlack s).hi = s.hi := rfl
@[simp] theorem drawSlack_round (s : State) : (drawSlack s).round = s.round := rfl
@[simp] theorem drawSlack_final (s : State) : (drawSlack s).final = s.final := rfl
@[simp] theorem drawSlack_phase (s : State) : (drawSlack s).phase = s.phase := rfl
@[simp] theorem drawSlack_err (s : State) : (drawSlack s).err = s.err := rfl
@[simp] theorem drawSlack_out (s : State) : (drawSlack s).out = s.out := rfl
@[simp] theorem drawSlack_stream (s : State) : (drawSlack s).stream = s.stream := rfl
@[simp] theorem drawSlack_resps (s : State) : (drawSlack s).resps = s.resps := rfl
@[simp] theorem drawSlack_resetIn (s : State) : (drawSlack s).resetIn = s.resetIn := rfl
@[simp] theorem drawSlack_slack (s : State) : (drawSlack s).slack = Config.pollsBeforeRound s.draw := rfl
@[simp] theorem drawSlack_draw (s : State) : (drawSlack s).draw = s.draw + 1 := rfl

/-! ## startPermutation -/

@[simp] theorem startPermutation_a (f : Bool) (s : State) : (startPermutation f s).a = s.a := rfl
@[simp] theorem startPermutation_fill (f : Bool) (s : State) : (startPermutation f s).fill = 0 := rfl
@[simp] theorem startPermutation_nibp (f : Bool) (s : State) : (startPermutation f s).nibp = s.nibp := rfl
@[simp] theorem startPermutation_hi (f : Bool) (s : State) : (startPermutation f s).hi = s.hi := rfl
@[simp] theorem startPermutation_round (f : Bool) (s : State) : (startPermutation f s).round = 0 := rfl
@[simp] theorem startPermutation_final (f : Bool) (s : State) : (startPermutation f s).final = f := rfl
@[simp] theorem startPermutation_phase (f : Bool) (s : State) : (startPermutation f s).phase = .busy := rfl
@[simp] theorem startPermutation_err (f : Bool) (s : State) : (startPermutation f s).err = s.err := rfl
@[simp] theorem startPermutation_out (f : Bool) (s : State) : (startPermutation f s).out = s.out := rfl
@[simp] theorem startPermutation_stream (f : Bool) (s : State) : (startPermutation f s).stream = s.stream := rfl
@[simp] theorem startPermutation_resps (f : Bool) (s : State) : (startPermutation f s).resps = s.resps := rfl
@[simp] theorem startPermutation_resetIn (f : Bool) (s : State) : (startPermutation f s).resetIn = s.resetIn := rfl
@[simp] theorem startPermutation_slack (f : Bool) (s : State) : (startPermutation f s).slack = Config.pollsBeforeRound s.draw := rfl
@[simp] theorem startPermutation_draw (f : Bool) (s : State) : (startPermutation f s).draw = s.draw + 1 := rfl

/-! ## complete -/

@[simp] theorem complete_a (s : State) : (complete s).a = s.a := rfl
@[simp] theorem complete_fill (s : State) : (complete s).fill = s.fill := rfl
@[simp] theorem complete_nibp (s : State) : (complete s).nibp = s.nibp := rfl
@[simp] theorem complete_hi (s : State) : (complete s).hi = s.hi := rfl
@[simp] theorem complete_round (s : State) : (complete s).round = s.round := rfl
@[simp] theorem complete_final (s : State) : (complete s).final = false := rfl
@[simp] theorem complete_phase (s : State) : (complete s).phase = .done := rfl
@[simp] theorem complete_err (s : State) : (complete s).err = s.err := rfl
@[simp] theorem complete_out (s : State) : (complete s).out = encodeDigest (squeeze s.a) := rfl
@[simp] theorem complete_stream (s : State) : (complete s).stream = s.stream := rfl
@[simp] theorem complete_resps (s : State) : (complete s).resps = s.resps := rfl
@[simp] theorem complete_resetIn (s : State) : (complete s).resetIn = s.resetIn := rfl
@[simp] theorem complete_slack (s : State) : (complete s).slack = s.slack := rfl
@[simp] theorem complete_draw (s : State) : (complete s).draw = s.draw := rfl

/-! ## clockReset -/

@[simp] theorem clockReset_a (s : State) : (clockReset s).a = s.a := rfl
@[simp] theorem clockReset_fill (s : State) : (clockReset s).fill = s.fill := rfl
@[simp] theorem clockReset_nibp (s : State) : (clockReset s).nibp = s.nibp := rfl
@[simp] theorem clockReset_hi (s : State) : (clockReset s).hi = s.hi := rfl
@[simp] theorem clockReset_round (s : State) : (clockReset s).round = s.round := rfl
@[simp] theorem clockReset_final (s : State) : (clockReset s).final = s.final := rfl
@[simp] theorem clockReset_phase (s : State) : (clockReset s).phase = s.phase := rfl
@[simp] theorem clockReset_err (s : State) : (clockReset s).err = s.err := rfl
@[simp] theorem clockReset_out (s : State) : (clockReset s).out = s.out := rfl
@[simp] theorem clockReset_stream (s : State) : (clockReset s).stream = s.stream := rfl
@[simp] theorem clockReset_resps (s : State) : (clockReset s).resps = s.resps := rfl
@[simp] theorem clockReset_resetIn (s : State) : (clockReset s).resetIn = s.resetIn.tail := rfl
@[simp] theorem clockReset_slack (s : State) : (clockReset s).slack = s.slack := rfl
@[simp] theorem clockReset_draw (s : State) : (clockReset s).draw = s.draw := rfl

/-! ## takePoll -/

@[simp] theorem takePoll_a (s : State) : (takePoll s).a = s.a := by unfold takePoll; split <;> rfl
@[simp] theorem takePoll_fill (s : State) : (takePoll s).fill = s.fill := by unfold takePoll; split <;> rfl
@[simp] theorem takePoll_nibp (s : State) : (takePoll s).nibp = s.nibp := by unfold takePoll; split <;> rfl
@[simp] theorem takePoll_hi (s : State) : (takePoll s).hi = s.hi := by unfold takePoll; split <;> rfl
@[simp] theorem takePoll_round (s : State) : (takePoll s).round = s.round := by unfold takePoll; split <;> rfl
@[simp] theorem takePoll_final (s : State) : (takePoll s).final = s.final := by unfold takePoll; split <;> rfl
@[simp] theorem takePoll_phase (s : State) : (takePoll s).phase = s.phase := by unfold takePoll; split <;> rfl
@[simp] theorem takePoll_err (s : State) : (takePoll s).err = s.err := by unfold takePoll; split <;> rfl
@[simp] theorem takePoll_out (s : State) : (takePoll s).out = s.out := by unfold takePoll; split <;> rfl
@[simp] theorem takePoll_stream (s : State) : (takePoll s).stream = s.stream := by unfold takePoll; split <;> rfl
@[simp] theorem takePoll_resps (s : State) : (takePoll s).resps = s.resps := by unfold takePoll; split <;> rfl
@[simp] theorem takePoll_resetIn (s : State) : (takePoll s).resetIn = s.resetIn := by unfold takePoll; split <;> rfl
@[simp] theorem takePoll_draw (s : State) : (takePoll s).draw = s.draw := by unfold takePoll; split <;> rfl
@[simp] theorem takePoll_slack_busy (s : State) (h : s.phase = .busy) : (takePoll s).slack = s.slack - 1 := by simp [takePoll, h]
theorem takePoll_of_not_busy (s : State) (h : s.phase ≠ .busy) : takePoll s = s := by simp [takePoll, h]
@[simp] theorem hold_eq (s : State) : hold s = s := rfl
@[simp] theorem ignoreInError_eq (s : State) : ignoreInError s = respondStatus s := rfl
@[simp] theorem clockReset_of_nil (s : State) (h : s.resetIn = []) : clockReset s = s := by cases s; simp_all [clockReset]

end Sys2Proof.Machine
end

