-- ==== Sys2Proof/Laws/Commands.lean ====
section
/-! SUPPORT. What each shared operation of the commands does, and the inversion lemma of exec. -/

namespace Sys2Proof.Machine

/-! ## The arms of exec -/

@[simp] theorem exec_start (o : Byte) (s : State) : exec (.start o) s = .next (unlessBusy openComputation s) := rfl
@[simp] theorem exec_char (c : Byte) (s : State) : exec (.char c) s = .next (byPhase (takeChar c) s) := rfl
@[simp] theorem exec_finish (o : Byte) (s : State) : exec (.finish o) s = .next (byPhase finishInput s) := rfl
@[simp] theorem exec_readStatus (o : Byte) (s : State) : exec (.readStatus o) s = .next (respondStatus s) := rfl
@[simp] theorem exec_readOut (i : Byte) (s : State) : exec (.readOut i) s = .next (respond (outChar i.toNat s) s) := rfl

/-- Every reserved row has the same effect (44_commands.md R187). -/
theorem exec_reserved (i : Instr) (h : i.isReserved) (s : State) :
    exec i s = .next (byPhase (raise .protocolError) s) := by
  cases i <;> first | rfl | simp [Instr.isReserved] at h

/-! ## The phase table (44_commands.md R181) -/

theorem byPhase_idle (f : State → State) (s : State) (h : s.phase = .idle) : byPhase f s = raise .protocolError s := by
  simp [byPhase, h]

theorem byPhase_done (f : State → State) (s : State) (h : s.phase = .done) : byPhase f s = raise .protocolError s := by
  simp [byPhase, h]

theorem byPhase_absorb (f : State → State) (s : State) (h : s.phase = .absorb) : byPhase f s = f s := by
  simp [byPhase, h]

theorem byPhase_busy (f : State → State) (s : State) (h : s.phase = .busy) : byPhase f s = s := by
  simp [byPhase, h]

theorem byPhase_error (f : State → State) (s : State) (h : s.phase = .error) : byPhase f s = respondStatus s := by
  simp [byPhase, h]

theorem unlessBusy_of_not_busy (f : State → State) (s : State) (h : s.phase ≠ .busy) : unlessBusy f s = f s := by
  cases hp : s.phase <;> simp_all [unlessBusy]

theorem unlessBusy_busy (f : State → State) (s : State) (h : s.phase = .busy) : unlessBusy f s = s := by
  simp [unlessBusy, h]

/-! ## CHAR and FINISH in ABSORB -/

theorem takeChar_invalid (c : Byte) (s : State) (h : valid c = false) : takeChar c s = raise .invalidCharacter s := by
  simp [takeChar, h]

theorem takeChar_first (c : Byte) (s : State) (h : valid c = true) (hn : s.nibp = false) :
    takeChar c s = respondStatus { s with hi := hexval c, nibp := true } := by
  simp [takeChar, h, hn]

theorem takeChar_second (c : Byte) (s : State) (h : valid c = true) (hn : s.nibp = true) :
    takeChar c s = respondStatus (absorbByte (pairNibbles s.hi (hexval c)) { s with hi := 0, nibp := false }) := by
  simp [takeChar, h, hn]

theorem absorbByte_full (b : Byte) (s : State) (h : s.fill = 135) :
    absorbByte b s = startPermutation false { s with a := xorS s.a s.fill.toNat b } := by
  unfold absorbByte
  rw [if_pos h]

theorem absorbByte_room (b : Byte) (s : State) (h : s.fill ≠ 135) :
    absorbByte b s = { s with a := xorS s.a s.fill.toNat b, fill := s.fill + 1 } := by
  unfold absorbByte
  rw [if_neg h]

theorem takeChar_full (c : Byte) (s : State) (h : valid c = true) (hn : s.nibp = true) (hf : s.fill = 135) :
    takeChar c s = respondStatus (startPermutation false { s with
      a := xorS s.a s.fill.toNat (pairNibbles s.hi (hexval c)), hi := 0, nibp := false }) := by
  rw [takeChar_second c s h hn, absorbByte_full _ { s with hi := 0, nibp := false } hf]

theorem takeChar_room (c : Byte) (s : State) (h : valid c = true) (hn : s.nibp = true) (hf : s.fill ≠ 135) :
    takeChar c s = respondStatus { s with
      a := xorS s.a s.fill.toNat (pairNibbles s.hi (hexval c)), hi := 0, nibp := false, fill := s.fill + 1 } := by
  rw [takeChar_second c s h hn, absorbByte_room _ { s with hi := 0, nibp := false } hf]

theorem finishInput_odd (s : State) (h : s.nibp = true) : finishInput s = raise .invalidLength s := by
  simp [finishInput, h]

theorem finishInput_even (s : State) (h : s.nibp = false) :
    finishInput s = respondStatus (startPermutation true { s with a := xorS (xorS s.a s.fill.toNat 0x01) 135 0x80 }) := by
  simp [finishInput, h]

/-! ## READ_OUT -/

theorem outChar_done (i : Nat) (s : State) (h : s.phase = .done) : outChar i s = s.out.getD i 0 := by simp [outChar, h]

theorem outChar_not_done (i : Nat) (s : State) (h : s.phase ≠ .done) : outChar i s = 0 := by simp [outChar, h]

/-! ## Everything a host command can do -/

/-- The possible results of a command's meaning. -/
inductive ExecResult (i : Instr) (s : State) : State → Prop where
  | held (hp : s.phase = .busy) (hi : i.isRead = false) : ExecResult i s s
  | read (hi : i.isRead = true) (v : Byte) : ExecResult i s (respond v s)
  | ignored (hp : s.phase = .error) (hi : i.isRead = false) (hs : ∀ o, i ≠ .start o) : ExecResult i s (respondStatus s)
  | opened (hp : s.phase ≠ .busy) (o : Byte) (hi : i = .start o) : ExecResult i s (openComputation s)
  | raised (hp : s.phase = .idle ∨ s.phase = .absorb ∨ s.phase = .done) (hi : i.isRead = false) (hs : ∀ o, i ≠ .start o)
      (e : Err) (he : e ≠ .none) : ExecResult i s (raise e s)
  | firstNibble (hp : s.phase = .absorb) (c : Byte) (hi : i = .char c) (hv : valid c = true) (hn : s.nibp = false) :
      ExecResult i s (respondStatus { s with hi := hexval c, nibp := true })
  | byteAbsorbed (hp : s.phase = .absorb) (c : Byte) (hi : i = .char c) (hv : valid c = true) (hn : s.nibp = true)
      (hf : s.fill ≠ 135) :
      ExecResult i s (respondStatus { s with
        a := xorS s.a s.fill.toNat (pairNibbles s.hi (hexval c)), hi := 0, nibp := false, fill := s.fill + 1 })
  | blockFilled (hp : s.phase = .absorb) (c : Byte) (hi : i = .char c) (hv : valid c = true) (hn : s.nibp = true)
      (hf : s.fill = 135) :
      ExecResult i s (respondStatus (startPermutation false { s with
        a := xorS s.a s.fill.toNat (pairNibbles s.hi (hexval c)), hi := 0, nibp := false }))
  | finished (hp : s.phase = .absorb) (o : Byte) (hi : i = .finish o) (hn : s.nibp = false) :
      ExecResult i s (respondStatus (startPermutation true { s with a := xorS (xorS s.a s.fill.toNat 0x01) 135 0x80 }))

theorem byPhase_cases {i : Instr} {s : State} (f : State → State) (hr : i.isRead = false) (hs : ∀ o, i ≠ .start o)
    (ha : s.phase = .absorb → ExecResult i s (f s)) : ExecResult i s (byPhase f s) := by
  cases hp : s.phase
  · rw [byPhase_idle f s hp]; exact .raised (.inl hp) hr hs _ (by decide)
  · rw [byPhase_absorb f s hp]; exact ha hp
  · rw [byPhase_busy f s hp]; exact .held hp hr
  · rw [byPhase_done f s hp]; exact .raised (.inr (.inr hp)) hr hs _ (by decide)
  · rw [byPhase_error f s hp]; exact .ignored hp hr hs

/-- The inversion lemma of exec. -/
theorem exec_cases {i : Instr} {s t : State} (h : exec i s = .next t) : ExecResult i s t := by
  by_cases hres : i.isReserved
  · rw [exec_reserved i hres] at h
    injection h with h
    subst h
    have hr : i.isRead = false := by cases i <;> first | rfl | simp [Instr.isReserved] at hres
    have hs : ∀ o, i ≠ .start o := by rintro o rfl; simp [Instr.isReserved] at hres
    exact byPhase_cases _ hr hs fun hp => .raised (.inr (.inl hp)) hr hs _ (by decide)
  cases i with
  | start o =>
    rw [exec_start] at h
    injection h with h
    subst h
    by_cases hp : s.phase = .busy
    · rw [unlessBusy_busy _ s hp]; exact .held hp rfl
    · rw [unlessBusy_of_not_busy _ s hp]; exact .opened hp o rfl
  | char c =>
    rw [exec_char] at h
    injection h with h
    subst h
    refine byPhase_cases _ rfl (by simp) fun hp => ?_
    cases hv : valid c
    · rw [takeChar_invalid c s hv]; exact .raised (.inr (.inl hp)) rfl (by simp) _ (by decide)
    · cases hn : s.nibp
      · rw [takeChar_first c s hv hn]; exact .firstNibble hp c rfl hv hn
      · by_cases hf : s.fill = 135
        · rw [takeChar_full c s hv hn hf]; exact .blockFilled hp c rfl hv hn hf
        · rw [takeChar_room c s hv hn hf]; exact .byteAbsorbed hp c rfl hv hn hf
  | finish o =>
    rw [exec_finish] at h
    injection h with h
    subst h
    refine byPhase_cases _ rfl (by simp) fun hp => ?_
    cases hn : s.nibp
    · rw [finishInput_even s hn]; exact .finished hp o rfl hn
    · rw [finishInput_odd s hn]; exact .raised (.inr (.inl hp)) rfl (by simp) _ (by decide)
  | readStatus o => injection h with h; subst h; exact .read rfl _
  | readOut i => injection h with h; subst h; exact .read rfl _
  | reserved00 _ => simp [Instr.isReserved] at hres
  | reserved06 _ _ => simp [Instr.isReserved] at hres
  | reserved08 _ _ => simp [Instr.isReserved] at hres
  | reserved10 _ _ => simp [Instr.isReserved] at hres
  | reserved20 _ _ => simp [Instr.isReserved] at hres
  | reserved40 _ _ => simp [Instr.isReserved] at hres
  | reserved80 _ _ => simp [Instr.isReserved] at hres

/-! ## The engine -/

theorem engineStep_more (s : State) (h : s.round.toNat < 23) :
    engineStep s = drawSlack { s with a := roundStep s.a s.round.toNat, round := s.round + 1 } := by
  simp [engineStep, h]

theorem engineStep_last (s : State) (h : ¬ s.round.toNat < 23) (hf : s.final = false) :
    engineStep s = { s with a := roundStep s.a s.round.toNat, round := 0, phase := .absorb } := by
  simp [engineStep, h, hf]

theorem engineStep_final (s : State) (h : ¬ s.round.toNat < 23) (hf : s.final = true) :
    engineStep s = complete { s with a := roundStep s.a s.round.toNat, round := 0 } := by
  simp [engineStep, h, hf]

/-- The engine step in one of its three forms (44_commands.md R190). -/
theorem engineStep_cases (s : State) :
    (s.round.toNat < 23 ∧
      engineStep s = drawSlack { s with a := roundStep s.a s.round.toNat, round := s.round + 1 }) ∨
    (¬ s.round.toNat < 23 ∧ s.final = false ∧
      engineStep s = { s with a := roundStep s.a s.round.toNat, round := 0, phase := .absorb }) ∨
    (¬ s.round.toNat < 23 ∧ s.final = true ∧
      engineStep s = complete { s with a := roundStep s.a s.round.toNat, round := 0 }) := by
  by_cases h : s.round.toNat < 23
  · exact .inl ⟨h, engineStep_more s h⟩
  · by_cases hf : s.final = true
    · exact .inr (.inr ⟨h, hf, engineStep_final s h hf⟩)
    · have hf' : s.final = false := by simpa using hf
      exact .inr (.inl ⟨h, hf', engineStep_last s h hf'⟩)

@[simp] theorem engineStep_a (s : State) : (engineStep s).a = roundStep s.a s.round.toNat := by
  obtain ⟨_, h⟩ | ⟨_, _, h⟩ | ⟨_, _, h⟩ := engineStep_cases s <;> simp [h]

@[simp] theorem engineStep_stream (s : State) : (engineStep s).stream = s.stream := by
  obtain ⟨_, h⟩ | ⟨_, _, h⟩ | ⟨_, _, h⟩ := engineStep_cases s <;> simp [h]

@[simp] theorem engineStep_resps (s : State) : (engineStep s).resps = s.resps := by
  obtain ⟨_, h⟩ | ⟨_, _, h⟩ | ⟨_, _, h⟩ := engineStep_cases s <;> simp [h]

@[simp] theorem engineStep_resetIn (s : State) : (engineStep s).resetIn = s.resetIn := by
  obtain ⟨_, h⟩ | ⟨_, _, h⟩ | ⟨_, _, h⟩ := engineStep_cases s <;> simp [h]

@[simp] theorem engineStep_fill (s : State) : (engineStep s).fill = s.fill := by
  obtain ⟨_, h⟩ | ⟨_, _, h⟩ | ⟨_, _, h⟩ := engineStep_cases s <;> simp [h]

@[simp] theorem engineStep_nibp (s : State) : (engineStep s).nibp = s.nibp := by
  obtain ⟨_, h⟩ | ⟨_, _, h⟩ | ⟨_, _, h⟩ := engineStep_cases s <;> simp [h]

@[simp] theorem engineStep_hi (s : State) : (engineStep s).hi = s.hi := by
  obtain ⟨_, h⟩ | ⟨_, _, h⟩ | ⟨_, _, h⟩ := engineStep_cases s <;> simp [h]

@[simp] theorem engineStep_err (s : State) : (engineStep s).err = s.err := by
  obtain ⟨_, h⟩ | ⟨_, _, h⟩ | ⟨_, _, h⟩ := engineStep_cases s <;> simp [h]

end Sys2Proof.Machine
end

