-- ==== Sys2Proof/Laws/Encoding.lean ====
section
/-! SUPPORT. The fields of a command word, and decoding by opcode. -/

namespace Sys2Proof

@[simp] theorem opcodeOf_wordOf (opcode operand : Byte) : opcodeOf (wordOf opcode operand) = opcode := by
  apply BitVec.eq_of_getLsbD_eq
  intro i hi
  have h : 8 + i < 16 := by omega
  simp [opcodeOf, wordOf, hi, h]

@[simp] theorem operandOf_wordOf (opcode operand : Byte) : operandOf (wordOf opcode operand) = operand := by
  apply BitVec.eq_of_getLsbD_eq
  intro i hi
  simp [operandOf, wordOf, hi]

/-- A word is its two fields (30_encoding.md R70). -/
theorem wordOf_fields (w : CommandWord) : wordOf (opcodeOf w) (operandOf w) = w := by
  apply BitVec.eq_of_getLsbD_eq
  intro i hi
  by_cases h : i < 8
  · have h' : i < 16 := hi
    simp [opcodeOf, operandOf, wordOf, h, h']
  · have h1 : i - 8 < 8 := by omega
    have h2 : 8 + (i - 8) = i := by omega
    simp [opcodeOf, operandOf, wordOf, h, h1, h2, hi]

theorem opcodeOf_toNat (w : CommandWord) : (opcodeOf w).toNat = w.toNat / 256 := by
  have := w.isLt
  simp [opcodeOf, Nat.shiftRight_eq_div_pow]
  omega

theorem operandOf_toNat (w : CommandWord) : (operandOf w).toNat = w.toNat % 256 := by
  simp [operandOf]

/-- Which row's test an opcode passes, by its range in the opcode map (30_encoding.md R74). -/
theorem reserved_tests : ∀ o : Byte, 6 ≤ o.toNat →
    o ≠ 0x00 ∧ o ≠ 0x01 ∧ o ≠ 0x02 ∧ o ≠ 0x03 ∧ o ≠ 0x04 ∧ o ≠ 0x05 ∧
    (o &&& 0xFE = 0x06 ↔ 0x06 ≤ o.toNat ∧ o.toNat ≤ 0x07) ∧ (o &&& 0xF8 = 0x08 ↔ 0x08 ≤ o.toNat ∧ o.toNat ≤ 0x0F) ∧
    (o &&& 0xF0 = 0x10 ↔ 0x10 ≤ o.toNat ∧ o.toNat ≤ 0x1F) ∧ (o &&& 0xE0 = 0x20 ↔ 0x20 ≤ o.toNat ∧ o.toNat ≤ 0x3F) ∧
    (o &&& 0xC0 = 0x40 ↔ 0x40 ≤ o.toNat ∧ o.toNat ≤ 0x7F) := by decide

end Sys2Proof
end

