-- ==== Sys2Proof/Laws/PerInstr.lean ====
section
/-! SUPPORT. The family TableRow: the encoded word of every well-formed command passes the mask-and-match test of its row of
spec/opcode_table.json. -/

namespace Sys2Proof.Laws.TableRow

/-- The command's word matches its row of the opcode table. -/
def Statement (i : Instr) : Prop := i.wellFormed = true → encode i &&& (tableRow i).1 = (tableRow i).2

/-- A word matches a row whose mask lies in the opcode byte when its opcode does. -/
theorem wordOf_matches (opcode operand mask pat : Byte) (h : opcode &&& mask = pat) :
    wordOf opcode operand &&& wordOf mask 0 = wordOf pat 0 := by
  subst h
  apply BitVec.eq_of_getLsbD_eq
  intro i hi
  by_cases h8 : i < 8
  · simp [wordOf, h8]
  · have h1 : i - 8 < 8 := by omega
    have h2 : operand.getLsbD i = false := BitVec.getLsbD_of_ge operand i (by omega)
    simp [wordOf, h8, hi, h2]

theorem start (operand : Byte) : Statement (.start operand) := fun _ =>
  wordOf_matches 0x01 operand 0xFF 0x01 (by decide)
theorem char (c : Byte) : Statement (.char c) := fun _ => wordOf_matches 0x02 c 0xFF 0x02 (by decide)
theorem finish (operand : Byte) : Statement (.finish operand) := fun _ =>
  wordOf_matches 0x03 operand 0xFF 0x03 (by decide)
theorem readStatus (operand : Byte) : Statement (.readStatus operand) := fun _ =>
  wordOf_matches 0x04 operand 0xFF 0x04 (by decide)
theorem readOut (i : Byte) : Statement (.readOut i) := fun _ => wordOf_matches 0x05 i 0xFF 0x05 (by decide)
theorem reserved00 (operand : Byte) : Statement (.reserved00 operand) := fun _ =>
  wordOf_matches 0x00 operand 0xFF 0x00 (by decide)
theorem reserved06 (opcode operand : Byte) : Statement (.reserved06 opcode operand) := fun h =>
  wordOf_matches opcode operand 0xFE 0x06 (by revert h; simp only [Instr.wellFormed]; revert opcode; decide)
theorem reserved08 (opcode operand : Byte) : Statement (.reserved08 opcode operand) := fun h =>
  wordOf_matches opcode operand 0xF8 0x08 (by revert h; simp only [Instr.wellFormed]; revert opcode; decide)
theorem reserved10 (opcode operand : Byte) : Statement (.reserved10 opcode operand) := fun h =>
  wordOf_matches opcode operand 0xF0 0x10 (by revert h; simp only [Instr.wellFormed]; revert opcode; decide)
theorem reserved20 (opcode operand : Byte) : Statement (.reserved20 opcode operand) := fun h =>
  wordOf_matches opcode operand 0xE0 0x20 (by revert h; simp only [Instr.wellFormed]; revert opcode; decide)
theorem reserved40 (opcode operand : Byte) : Statement (.reserved40 opcode operand) := fun h =>
  wordOf_matches opcode operand 0xC0 0x40 (by revert h; simp only [Instr.wellFormed]; revert opcode; decide)
theorem reserved80 (opcode operand : Byte) : Statement (.reserved80 opcode operand) := fun h =>
  wordOf_matches opcode operand 0x80 0x80 (by revert h; simp only [Instr.wellFormed]; revert opcode; decide)

end Sys2Proof.Laws.TableRow
end

