-- ==== Sys2Proof/Laws/Step.lean ====
section
/-! SUPPORT. Whose turn it is, and the inversion lemma of step. -/

namespace Sys2Proof.Machine

theorem step_reset {s : State} (h : resetAsserted s = true) : step s = .next (applyReset (clockReset s)) := by
  simp [step, nextTurn, h]

theorem step_host {s : State} {i : Instr} (hr : resetAsserted s = false) (hp : s.phase ≠ .busy)
    (hc : nextCommand s = some i) : step s = exec i (clockReset s) := by
  have h : nextTurn s = .host i := by cases hq : s.phase <;> simp_all [nextTurn]
  rw [step, h]
  simp [takePoll_of_not_busy (clockReset s) (by simpa using hp)]

theorem step_idle {s : State} (hr : resetAsserted s = false) (hp : s.phase ≠ .busy) (hc : nextCommand s = none) :
    step s = .next (clockReset s) := by
  have h : nextTurn s = .idle := by cases hq : s.phase <;> simp_all [nextTurn]
  rw [step, h]

theorem step_poll {s : State} {i : Instr} (hr : resetAsserted s = false) (hp : s.phase = .busy)
    (hc : nextCommand s = some i) (hi : i.isRead = true) (hs : s.slack ≠ 0) :
    step s = exec i (takePoll (clockReset s)) := by
  have h : nextTurn s = .host i := by simp_all [nextTurn]
  rw [step, h]

theorem step_engine {s : State} (hr : resetAsserted s = false) (hp : s.phase = .busy)
    (hc : ∀ i, nextCommand s = some i → i.isRead = true → s.slack = 0) :
    step s = .next (engineStep (clockReset s)) := by
  have h : nextTurn s = .engine := by
    cases hq : nextCommand s with
    | none => simp [nextTurn, hr, hp, hq]
    | some i =>
      have := hc i hq
      simp only [nextTurn, hr, hp, hq]
      by_cases hi : i.isRead = true <;> simp_all
  rw [step, h]

/-- Everything a step can be. -/
inductive StepKind (s : State) : Host.Outcome State Fault Refusal → Prop where
  | reset (hr : resetAsserted s = true) : StepKind s (.next (applyReset (clockReset s)))
  | host (hr : resetAsserted s = false) (hp : s.phase ≠ .busy) (i : Instr) (hc : nextCommand s = some i) :
      StepKind s (exec i (clockReset s))
  | idle (hr : resetAsserted s = false) (hp : s.phase ≠ .busy) (hc : nextCommand s = none) :
      StepKind s (.next (clockReset s))
  | poll (hr : resetAsserted s = false) (hp : s.phase = .busy) (i : Instr) (hc : nextCommand s = some i)
      (hi : i.isRead = true) (hs : s.slack ≠ 0) : StepKind s (exec i (takePoll (clockReset s)))
  | engine (hr : resetAsserted s = false) (hp : s.phase = .busy)
      (hc : ∀ i, nextCommand s = some i → i.isRead = true → s.slack = 0) :
      StepKind s (.next (engineStep (clockReset s)))

/-- The inversion lemma of step. -/
theorem step_kind (s : State) : StepKind s (step s) := by
  cases hr : resetAsserted s with
  | true => rw [step_reset hr]; exact .reset hr
  | false =>
    by_cases hp : s.phase = .busy
    · by_cases hc : ∀ i, nextCommand s = some i → i.isRead = true → s.slack = 0
      · rw [step_engine hr hp hc]; exact .engine hr hp hc
      · push Not at hc
        obtain ⟨i, hc, hi, hs⟩ := hc
        rw [step_poll hr hp hc hi hs]; exact .poll hr hp i hc hi hs
    · cases hc : nextCommand s with
      | none => rw [step_idle hr hp hc]; exact .idle hr hp hc
      | some i => rw [step_host hr hp hc]; exact .host hr hp i hc

end Sys2Proof.Machine
end

