-- ==== Sys2Proof/Laws/Run.lean ====
section
/-! SUPPORT. Runs of many steps, and the fairness of the schedule: in BUSY the engine's turn comes after finitely many
reads. -/

namespace Sys2Proof.Machine

@[simp] theorem runSteps_zero (s : State) : runSteps 0 s = .next s := rfl

theorem runSteps_succ {s t : State} (k : Nat) (h : step s = .next t) : runSteps (k + 1) s = runSteps k t := by
  rw [runSteps, h]

/-- Runs compose. -/
theorem runSteps_add {s t : State} (k m : Nat) (h : runSteps k s = .next t) : runSteps (k + m) s = runSteps m t := by
  induction k generalizing s with
  | zero =>
    injection h with h
    rw [Nat.zero_add, h]
  | succ k ih =>
    cases hs : step s with
    | next u =>
      rw [runSteps_succ k hs] at h
      rw [Nat.add_right_comm, runSteps_succ _ hs]
      exact ih h
    | fault r => cases r
    | refused r =>
      rw [runSteps, hs] at h
      cases h

/-- The host's run of the core is this run. -/
theorem core_run (k : Nat) (s : State) : Sys2Proof.core.run k s = runSteps k s := by
  induction k generalizing s with
  | zero => rfl
  | succ k ih =>
    cases hs : step s with
    | next t =>
      have h : Sys2Proof.core.step s = .next t := hs
      simp only [Host.Core.run, h, runSteps_succ k hs]
      exact ih t
    | fault r => cases r
    | refused r =>
      have h : Sys2Proof.core.step s = .refused r := hs
      simp only [Host.Core.run, h, runSteps, hs]
      rfl

/-- What a read does when it is taken: it is answered, and no register changes. -/
theorem exec_read {i : Instr} (hi : i.isRead = true) (s : State) : ∃ v, exec i s = .next (respond v s) := by
  cases i <;> first | exact ⟨_, rfl⟩ | simp [Instr.isRead] at hi

/-- Fairness (44_commands.md R192): from a BUSY state with the reset input idle, the engine steps after finitely many reads;
until then only the stream, the responses and the schedule have moved. -/
theorem engine_turn_comes (s : State) (hp : s.phase = .busy) (hr : s.resetIn = []) :
    ∃ (k : Nat) (reads : List CommandWord) (rest : List CommandWord) (rs : List Byte) (slack : Nat),
      s.stream = reads ++ rest ∧ (∀ w ∈ reads, (decode w).isRead = true) ∧ rs.length = reads.length ∧
      runSteps k s =
        .next (engineStep { s with stream := rest, resps := s.resps ++ rs, slack := slack }) := by
  generalize hn : s.slack = n
  induction n generalizing s with
  | zero =>
    refine ⟨1, [], s.stream, [], s.slack, rfl, by simp, rfl, ?_⟩
    rw [runSteps_succ 0 (step_engine (by simp [resetAsserted, hr]) hp fun _ _ _ => hn)]
    simp [clockReset, hr]
  | succ n ih =>
    by_cases hc : ∀ i, nextCommand s = some i → i.isRead = true → s.slack = 0
    · refine ⟨1, [], s.stream, [], s.slack, rfl, by simp, rfl, ?_⟩
      rw [runSteps_succ 0 (step_engine (by simp [resetAsserted, hr]) hp hc)]
      simp [clockReset, hr]
    · push Not at hc
      obtain ⟨i, hc, hi, hs⟩ := hc
      obtain ⟨w, hw, hd⟩ : ∃ w, s.stream.head? = some w ∧ decode w = i := by simpa [nextCommand] using hc
      obtain ⟨v, hv⟩ := exec_read hi (takePoll (clockReset s))
      have hstep := (step_poll (by simp [resetAsserted, hr]) hp hc hi hs).trans hv
      obtain ⟨k, reads, rest, rs, slack, h1, h2, h3, h4⟩ := ih (respond v (takePoll (clockReset s)))
        (by simpa using hp) (by simp [hr]) (by simp [hp, hn])
      have hcons : s.stream = w :: s.stream.tail := by
        cases hq : s.stream <;> simp_all
      refine ⟨k + 1, w :: reads, rest, v :: rs, slack, ?_, ?_, by simp [h3], ?_⟩
      · rw [hcons, List.cons_append]
        exact congrArg _ (by simpa using h1)
      · intro x hx
        rcases List.mem_cons.mp hx with rfl | hx
        · rw [hd]; exact hi
        · exact h2 x hx
      · rw [runSteps_succ k hstep, h4]
        simp [takePoll, hp, respond, clockReset, hr]

end Sys2Proof.Machine
end

