-- ==== Sys2Proof/Laws/Sponge.lean ====
section
/-! SUPPORT. The pure functions in the forms proofs use: bytes of two digits, characters of a digest, the padding written
out, and the first block of a string. -/

namespace Sys2Proof.Machine

/-! ## Hex digits -/

theorem pairNibbles_eq (h l : Nibble) : pairNibbles h l = BitVec.ofNat 8 (16 * h.toNat + l.toNat) := by
  revert h l; decide

theorem valid_hexdigit (n : Nibble) : valid (hexdigit n) = true := by revert n; decide

theorem hexval_hexdigit (n : Nibble) : hexval (hexdigit n) = n := by revert n; decide

/-- Decoding the two characters of a byte gives the byte back (43_formatter.md R171, 40_hexcodec.md R103). -/
theorem pair_hexdigits : ∀ b : Byte,
    pair (hexdigit ((b >>> 4).setWidth 4)) (hexdigit ((b &&& 0x0F).setWidth 4)) = b := by decide

theorem encodeDigest_getElem (d : Vector Byte 32) (i : Nat) (h : i < 64) :
    (encodeDigest d)[i] =
      hexdigit (if i % 2 = 0 then (d[i / 2] >>> 4).setWidth 4 else (d[i / 2] &&& 0x0F).setWidth 4) := by
  rw [encodeDigest, Vector.getElem_ofFn]

/-- The bytes of an even text are its pairs, in order. -/
theorem pairs_spec (n : Nat) (t : List Byte) (h : t.length = 2 * n) :
    (pairs t).length = n ∧ ∀ k, k < n → (pairs t).getD k 0 = pair (t.getD (2 * k) 0) (t.getD (2 * k + 1) 0) := by
  induction n generalizing t with
  | zero =>
    have ht : t = [] := List.length_eq_zero_iff.mp (by omega)
    subst ht
    exact ⟨rfl, fun k hk => absurd hk (by omega)⟩
  | succ n ih =>
    match t, h with
    | [_], h => simp at h; omega
    | a :: b :: r, h =>
      obtain ⟨h1, h2⟩ := ih r (by simp at h; omega)
      refine ⟨by simp [pairs, h1], fun k hk => ?_⟩
      cases k with
      | zero => simp [pairs]
      | succ k =>
        have e : 2 * (k + 1) = 2 * k + 1 + 1 := by omega
        simpa [pairs, e] using h2 k (by omega)

/-! ## Padding and blocks -/

theorem modify_last (q : Nat) (f : Byte → Byte) :
    (List.replicate q (0 : Byte) ++ [0]).modify q f = List.replicate q 0 ++ [f 0] := by
  induction q with
  | zero => rfl
  | succ q ih => rw [List.replicate_succ, List.cons_append, List.modify_succ_cons, ih]; rfl

/-- The padding of more than one byte: first byte, zeros, last byte (42_sponge.md R150). -/
theorem padding_long (q : Nat) : padding (q + 2) = 0x01 :: (List.replicate q 0x00 ++ [0x80]) := by
  have e : List.replicate (q + 2) (0 : Byte) = 0 :: (List.replicate q 0 ++ [0]) := by
    rw [List.replicate_succ, List.replicate_succ']
  unfold padding
  rw [e, List.modify_zero_cons, show q + 2 - 1 = q + 1 by omega, List.modify_succ_cons, modify_last]
  simp

theorem padding_length (q : Nat) : (padding q).length = q := by simp [padding]

/-- A block in front of a byte string is its first block. -/
theorem blocks_append (x y : List Byte) (h : x.length = 136) : blocks (x ++ y) = x :: blocks y := by
  unfold blocks
  have hn : (x ++ y).length / Config.rateBytes = y.length / Config.rateBytes + 1 := by
    simp [Config.rateBytes, h]
  rw [hn, List.range_succ_eq_map, List.map_cons, List.map_map]
  congr 1
  · simp [Config.rateBytes, h]
  · apply List.map_congr_left
    intro i _
    have e : Config.rateBytes * (i + 1) = x.length + Config.rateBytes * i := by
      rw [h]; simp only [Config.rateBytes]; omega
    simp [e, List.drop_append, List.drop_eq_nil_of_le]

end Sys2Proof.Machine
end

