-- ==== Sys2Proof/Machine/Assembler.lean ====
section
/-! DEFINITION. The command-stream assembly language (30_encoding.md R77): one command a line, `;` starts a comment,
mnemonics are case-insensitive; and the pseudo-commands that expand to fixed words, FEED and READ_DIGEST (R79). WAIT and
HASH loop on the host and have no fixed expansion. What R77 leaves open of the notation is log 12. It is notation of the
host's side: no step of the block uses it. -/

namespace Sys2Proof.Machine

/-- A space or a tab. -/
def isBlank (c : Char) : Bool := c = ' ' || c = '\t'

/-- A character of a mnemonic. -/
def isNameChar (c : Char) : Bool := c.isAlpha || c = '_' || c = '.'

/-- Nothing but blanks before the line's end or its comment. -/
def atLineEnd (cs : List Char) : Bool :=
  match cs.dropWhile isBlank with
  | [] => true
  | c :: _ => c = ';'

/-- The value of a digit in the base given. -/
def digitValue (base : Nat) (c : Char) : Option Nat :=
  let n := c.toNat
  let v := if 48 ≤ n ∧ n ≤ 57 then some (n - 48)
    else if 65 ≤ n ∧ n ≤ 70 then some (n - 55)
    else if 97 ≤ n ∧ n ≤ 102 then some (n - 87)
    else none
  v.bind fun d => if d < base then some d else none

/-- The number the leading digits of a text spell, from the value read so far, with the text after them. -/
def digits (base : Nat) (acc : Nat) : List Char → Nat × List Char
  | [] => (acc, [])
  | c :: cs =>
    match digitValue base c with
    | some d => digits base (acc * base + d) cs
    | none => (acc, c :: cs)

/-- A number: `0x` and hex digits, or decimal digits (R77). -/
def number : List Char → Option (Nat × List Char)
  | '0' :: 'x' :: c :: cs => if (digitValue 16 c).isSome then some (digits 16 0 (c :: cs)) else none
  | c :: cs => if (digitValue 10 c).isSome then some (digits 10 0 (c :: cs)) else none
  | [] => none

/-- A byte operand: a number 0..255 or, for CHAR, a quoted ASCII character; anything else is an assembly error (R77). -/
def byteOperand (quoted : Bool) (cs : List Char) : Option Byte :=
  match cs.dropWhile isBlank with
  | '\'' :: c :: '\'' :: rest =>
    if quoted && c.toNat < 128 && atLineEnd rest then some (BitVec.ofNat 8 c.toNat) else none
  | text =>
    match number text with
    | some (n, rest) => if n < 256 && atLineEnd rest then some (BitVec.ofNat 8 n) else none
    | none => none

/-- A raw 16-bit word (R77 `.word`). -/
def wordOperand (cs : List Char) : Option CommandWord :=
  match number (cs.dropWhile isBlank) with
  | some (n, rest) => if n < 65536 && atLineEnd rest then some (BitVec.ofNat 16 n) else none
  | none => none

/-- The bytes of a quoted text, up to its closing quote; a character outside ASCII is its UTF-8 bytes (20_memory.md R56). -/
def textOperand (cs : List Char) : Option (List Byte) :=
  match cs.dropWhile isBlank with
  | '"' :: rest =>
    match rest.dropWhile (· ≠ '"') with
    | _ :: after =>
      if atLineEnd after then
        some ((rest.takeWhile (· ≠ '"')).flatMap fun c => (String.utf8EncodeChar c).map fun b => b.toBitVec)
      else none
    | [] => none
  | _ => none

/-- The words of one line: none is an assembly error; an empty or a comment line has no words (R77, R79). DESIGN CHOICE (log
12): a mnemonic and its operand need no blank between them, since a mnemonic ends at the first character that is no letter,
underscore or dot; R77 does not say whether they must be separated. -/
def assembleLine (line : List Char) : Option (List CommandWord) :=
  let text := line.dropWhile isBlank
  let name := (text.takeWhile isNameChar).map Char.toLower
  let rest := text.dropWhile isNameChar
  let plain (i : Instr) : Option (List CommandWord) := if atLineEnd rest then some [encode i] else none
  if name = [] then (if atLineEnd text then some [] else none)
  else if name = ['s', 't', 'a', 'r', 't'] then plain (.start 0)
  else if name = ['f', 'i', 'n', 'i', 's', 'h'] then plain (.finish 0)
  else if name = ['r', 'e', 'a', 'd', '_', 's', 't', 'a', 't', 'u', 's'] then plain (.readStatus 0)
  else if name = ['c', 'h', 'a', 'r'] then (byteOperand true rest).map fun c => [encode (.char c)]
  else if name = ['r', 'e', 'a', 'd', '_', 'o', 'u', 't'] then (byteOperand false rest).map fun i => [encode (.readOut i)]
  else if name = ['.', 'w', 'o', 'r', 'd'] then (wordOperand rest).map fun w => [w]
  else if name = ['f', 'e', 'e', 'd'] then (textOperand rest).map feed
  else if name = ['r', 'e', 'a', 'd', '_', 'd', 'i', 'g', 'e', 's', 't'] then
    if atLineEnd rest then some readDigest else none
  else none

/-- The words of a program, line by line; none if any line is an assembly error (R77). -/
def assemble (lines : List (List Char)) : Option (List CommandWord) :=
  (lines.mapM assembleLine).map List.flatten

end Sys2Proof.Machine
end

