-- ==== Sys2Proof/Tests/Slice0.lean ====
section
/-! SUPPORT. The model's own tests. Expected values are the spec's: the words of 30_encoding.md R72 and R78, the vectors V10
to V51 of 95_test_vectors.md. After them, one witness for each statement of Certificates/Slice0/Obligations.lean that has
hypotheses: a concrete state and operands that meet them all, clause by clause, at the ends of the ranges. -/

namespace Sys2Proof.Tests

open Sys2Proof Sys2Proof.Machine Sys2Proof.Claims

/-! ## Small states -/

/-- ABSORB with the given position, pending nibble and stream. -/
def absorbing (fill : BitVec 8) (nibp : Bool) (hi : Nibble) (stream : List CommandWord) : State :=
  { State.reset with phase := .absorb, fill := fill, nibp := nibp, hi := hi, stream := stream }

/-- BUSY before the given round, with the given reads still allowed. -/
def busyAt (round : BitVec 5) (final : Bool) (slack : Nat) (stream : List CommandWord) : State :=
  { State.reset with phase := .busy, round := round, final := final, slack := slack, stream := stream }

/-- DONE, as `complete` leaves it. -/
def finished (stream : List CommandWord) : State := complete { State.reset with stream := stream }

/-- ERROR with the given error. -/
def failed (e : Err) (stream : List CommandWord) : State := { State.reset with phase := .error, err := e, stream := stream }

/-- IDLE with a stream. -/
def waiting (stream : List CommandWord) : State := { State.reset with stream := stream }

/-- What a step answers, field by field: the state after it. -/
def after (s : State) : State :=
  match step s with
  | .next t => t
  | .fault _ => s
  | .refused _ => s

/-- A text's bytes. -/
def text (s : List Char) : List Byte := s.map fun c => BitVec.ofNat 8 c.toNat

/-! ## WellFormed: an ill-formed term for each check -/

theorem test_reserved06_below : (Instr.reserved06 0x05 0x00).wellFormed = false := by decide
theorem test_reserved06_above : (Instr.reserved06 0x08 0x00).wellFormed = false := by decide
theorem test_reserved08_below : (Instr.reserved08 0x07 0x00).wellFormed = false := by decide
theorem test_reserved08_above : (Instr.reserved08 0x10 0x00).wellFormed = false := by decide
theorem test_reserved10_below : (Instr.reserved10 0x0F 0x00).wellFormed = false := by decide
theorem test_reserved10_above : (Instr.reserved10 0x20 0x00).wellFormed = false := by decide
theorem test_reserved20_below : (Instr.reserved20 0x1F 0x00).wellFormed = false := by decide
theorem test_reserved20_above : (Instr.reserved20 0x40 0x00).wellFormed = false := by decide
theorem test_reserved40_below : (Instr.reserved40 0x3F 0x00).wellFormed = false := by decide
theorem test_reserved40_above : (Instr.reserved40 0x80 0x00).wellFormed = false := by decide
theorem test_reserved80_below : (Instr.reserved80 0x7F 0x00).wellFormed = false := by decide

/-! ## Decode: words written out from OPCODE[15:8] OPERAND[7:0] (30_encoding.md R70, R72, R78) -/

theorem test_decode_start : decode 0b00000001_00000000 = .start 0x00 := by decide
theorem test_decode_char : decode 0b00000010_01100001 = .char 0x61 := by decide
theorem test_decode_finish : decode 0b00000011_00000000 = .finish 0x00 := by decide
theorem test_decode_readStatus : decode 0b00000100_10101010 = .readStatus 0xAA := by decide
theorem test_decode_readOut : decode 0b00000101_00111111 = .readOut 63 := by decide
theorem test_decode_reserved00 : decode 0b00000000_10000001 = .reserved00 0x81 := by decide
theorem test_decode_reserved06 : decode 0b00000111_00000001 = .reserved06 0x07 0x01 := by decide
theorem test_decode_reserved08 : decode 0b00001111_00000000 = .reserved08 0x0F 0x00 := by decide
theorem test_decode_reserved10 : decode 0b00011111_00000010 = .reserved10 0x1F 0x02 := by decide
theorem test_decode_reserved20 : decode 0b00111111_00000100 = .reserved20 0x3F 0x04 := by decide
theorem test_decode_reserved40 : decode 0b01111111_00001000 = .reserved40 0x7F 0x08 := by decide
theorem test_decode_reserved80 : decode 0b10000000_11111111 = .reserved80 0x80 0xFF := by decide

/-- The byte pair carries OPCODE first; one byte alone is rejected by name. -/
theorem test_decode_bytes :
    decodeBytes [0x02, 0x61, 0x03] = .ok (.char 0x61, [0x03]) ∧ decodeBytes [0x02] = .error .truncated := by
  decide

theorem test_decodeTableWord : decodeTableWord 16 0x053F = some (.readOut 63) ∧ decodeTableWord 16 0x10000 = none := by
  decide

/-! ## Single steps (V50, V51) -/

/-- V50, START from IDLE. -/
theorem test_start_idle : (after (waiting [0x0100])).phase = .absorb ∧ (after (waiting [0x0100])).resps = [0x01] := by
  decide

/-- V50, START from DONE: the digest is gone. -/
theorem test_start_done : (after (finished [0x0100])).out = zeroOut ∧ (after (finished [0x0100])).resps = [0x01] := by
  decide +kernel

/-- V51, CHAR 'a' at FILL = 0. -/
theorem test_char_first :
    let t := after (absorbing 0 false 0 [0x0261])
    t.nibp = true ∧ t.hi = 10 ∧ t.fill = 0 ∧ t.resps = [0x01] := by decide

/-- V51, CHAR 'b' after it: the byte 0xAB, the first character the high nibble. -/
theorem test_char_second :
    let t := after (absorbing 0 true 10 [0x0262])
    lane t.a 0 0 = 0xAB ∧ t.fill = 1 ∧ t.nibp = false ∧ t.hi = 0 ∧ t.resps = [0x01] := by decide

/-- V51, FINISH on an empty block: 0x01 at S[0], 0x80 at S[135]. -/
theorem test_finish :
    let t := after (absorbing 0 false 0 [0x0300])
    lane t.a 0 0 = 0x01 ∧ lane t.a 1 3 = 0x8000000000000000 ∧ t.final = true ∧ t.round = 0 ∧ t.resps = [0x02] := by
  decide

/-- V50, FINISH with a pending nibble. -/
theorem test_finish_odd :
    let t := after (absorbing 0 true 10 [0x0300])
    t.phase = .error ∧ t.err = .invalidLength ∧ t.hi = 0 ∧ t.resps = [0x0C] := by decide

/-- V51, READ_STATUS with OPERAND 0xAA in DONE. -/
theorem test_readStatus_done : (after (finished [0x04AA])).resps = [0x03] := by decide

/-- V50, READ_STATUS polling a permutation. -/
theorem test_readStatus_busy :
    (after (busyAt 3 true 1 [0x0400])).resps = [0x02] ∧ (after (busyAt 3 true 1 [0x0400])).slack = 0 := by decide

/-- V51, READ_OUT 63 and 64 in DONE; OUT here is the formatted zero state, all '0' (V40). -/
theorem test_readOut : (after (finished [0x053F])).resps = [0x30] ∧ (after (finished [0x0540])).resps = [0x00] := by
  decide +kernel

/-- V50, the reserved opcodes in IDLE (P7's words of each row). -/
theorem test_reserved :
    (after (waiting [0x0000])).resps = [0x1C] ∧ (after (waiting [0x0600])).resps = [0x1C] ∧
    (after (waiting [0x0800])).resps = [0x1C] ∧ (after (waiting [0x1000])).resps = [0x1C] ∧
    (after (waiting [0x2000])).resps = [0x1C] ∧ (after (waiting [0x4000])).resps = [0x1C] ∧
    (after (waiting [0xFF00])).resps = [0x1C] := by decide

/-- V50, a reserved opcode in ERROR: the response is the first error's. -/
theorem test_reserved_ignored : (after (failed .invalidLength [0xFF00])).resps = [0x0C] := by decide

/-- V51, after START; FINISH, one engine step: A[0][0] of V21 and ROUND = 1. -/
theorem test_engine_first_round :
    let t := engineStep (after (absorbing 0 false 0 [0x0300]))
    lane t.a 0 0 = 0x0000040000000001 ∧ lane t.a 4 4 = 0x4 ∧ t.round = 1 ∧ t.phase = .busy := by decide +kernel

/-! ## The permutation (V19, V23) -/

theorem test_rol64 :
    rol64 0x8000000000000000 1 = 0x0000000000000001 ∧ rol64 0x0123456789ABCDEF 0 = 0x0123456789ABCDEF ∧
    rol64 0x0123456789ABCDEF 63 = 0x8091A2B3C4D5E6F7 := by decide

/-- V23, θ on the single bit A[2][3] = 2^63. -/
theorem test_theta :
    let a := theta (setLane zeroLanes 2 3 0x8000000000000000)
    lane a 1 0 = 0x1 ∧ lane a 3 4 = 0x8000000000000000 ∧ lane a 2 3 = 0x8000000000000000 ∧ lane a 0 0 = 0 := by
  decide +kernel

/-- V23, ρ on lanes of 1 and π on lanes x + 5y. -/
theorem test_rho_pi :
    lane (rhoStep (mkLanes fun _ _ => 1)) 2 0 = 0x4000000000000000 ∧ lane (rhoStep (mkLanes fun _ _ => 1)) 4 4 = 0x4000 ∧
    (piStep (mkLanes fun x y => BitVec.ofNat 64 (x + 5 * y))).toList.take 10 = [0, 6, 12, 18, 24, 3, 9, 10, 16, 22] := by
  decide +kernel

/-- V23, χ on A[2][0] alone and ι of the last round. -/
theorem test_chi_iota :
    lane (chi (setLane zeroLanes 2 0 0xFFFFFFFFFFFFFFFF)) 0 0 = 0xFFFFFFFFFFFFFFFF ∧
    lane (chi (setLane zeroLanes 2 0 0xFFFFFFFFFFFFFFFF)) 1 0 = 0 ∧
    lane (iota zeroLanes 23) 0 0 = 0x8000000080008008 := by decide +kernel

/-! ## The pure functions (V11, V30, V40) -/

theorem test_hexDecode :
    hexDecode (text ['0', 'a', 'F', 'f']) = .ok [0x0A, 0xFF] ∧ hexDecode (text ['g']) = .error .invalidCharacter ∧
    hexDecode (text ['a', 'b', 'c']) = .error .invalidLength := by decide

theorem test_padding : padding 1 = [0x81] ∧ padding 2 = [0x01, 0x80] ∧ padding 3 = [0x01, 0x00, 0x80] := by decide

theorem test_hexdigit : hexdigit 9 = 0x39 ∧ hexdigit 10 = 0x61 ∧ hexdigit 15 = 0x66 := by decide

/-! ## The assembler (30_encoding.md R77, R78) -/

theorem test_assemble_char : assembleLine ['C', 'H', 'A', 'R', ' ', '\'', 'a', '\''] = some [0x0261] := by decide
theorem test_assemble_word :
    assembleLine ['.', 'w', 'o', 'r', 'd', ' ', '0', 'x', '0', '7', '0', '0', ' ', ';', 'x'] = some [0x0700] := by decide
theorem test_assemble_range : assembleLine ['C', 'H', 'A', 'R', ' ', '2', '5', '6'] = none := by decide

/-! ## Witnesses: the invariants -/

/-- The reset input pressed in the middle of a permutation, a command waiting. -/
def pressed : State := { busyAt 22 true 0 [0x0230] with resetIn := [true] }

theorem witness_ResetClearsEverythingInEveryPhase :
    pressed.resetIn = true :: [] ∧ pressed.resetIn = [true] ∧ pressed.stream = 0x0230 :: [] ∧
    decode 0x0230 = .char 0x30 ∧ decode 0x0300 = .finish 0 ∧ decode 0x0100 = .start 0 := by decide

theorem absorbing_inv : StateInv (absorbing 135 true 0xF [0x0230]) := by
  constructor <;> simp [absorbing, State.reset, zeroOut]

theorem busyAt_inv : StateInv (busyAt 23 true 0 []) := by
  constructor <;> simp [busyAt, State.reset, zeroOut]

/-- FILL = 135 with a byte completing, and ROUND = 23. -/
theorem witness_StepKeepsTheInvariants :
    (StateInv (absorbing 135 true 0xF [0x0230]) ∧ ∃ t, step (absorbing 135 true 0xF [0x0230]) = .next t ∧ t.phase = .busy) ∧
    (StateInv (busyAt 23 true 0 []) ∧ ∃ t, step (busyAt 23 true 0 []) = .next t ∧ t.phase = .done) :=
  ⟨⟨absorbing_inv, _, rfl, by decide⟩, busyAt_inv, _, rfl, by decide⟩

/-- DONE read once, and DONE entered by the last round. -/
theorem witness_StepKeepsTheDigestInDone :
    (DoneShowsDigest (finished [0x0500]) ∧ ∃ t, step (finished [0x0500]) = .next t ∧ t.phase = .done) ∧
    (DoneShowsDigest (busyAt 23 true 0 []) ∧ ∃ t, step (busyAt 23 true 0 []) = .next t ∧ t.phase = .done) :=
  ⟨⟨fun _ => rfl, _, rfl, by decide⟩, fun h => by simp [busyAt] at h, _, rfl, by decide⟩

theorem witness_ReachableStatusValues :
    StateInv (busyAt 23 true 0 []) ∧ StateInv (failed .protocolError []) :=
  ⟨busyAt_inv, by constructor <;> simp [failed, State.reset, zeroOut, zeroLanes]⟩

/-! ## Witnesses: encoding -/

theorem witness_DecodeOfEncodeIsTheCommand :
    (Instr.reserved06 0x07 0xFF).wellFormed = true ∧ (Instr.char 0xFF).wellFormed = true := by decide

theorem witness_EveryWordIsExactlyOneCommand :
    (Instr.char 0x61).wellFormed = true ∧ encode (.char 0x61) = 0x0261 := by decide

theorem witness_OpcodeAloneSelectsTheCommand :
    (0x01FF : CommandWord).toNat / 256 = 1 ∧ (0x0200 : CommandWord).toNat / 256 = 2 ∧
    (0x03FF : CommandWord).toNat / 256 = 3 ∧ (0x0400 : CommandWord).toNat / 256 = 4 ∧
    (0x05FF : CommandWord).toNat / 256 = 5 ∧ (0x00FF : CommandWord).toNat / 256 = 0 ∧
    6 ≤ (0x0600 : CommandWord).toNat / 256 ∧ 6 ≤ (0xFFFF : CommandWord).toNat / 256 := by decide

/-! ## Witnesses: the two agents -/

theorem witness_StepRunsTheDecodedCommand :
    ((Instr.start 0).wellFormed = true ∧ NoReset (waiting [0x0100]) ∧
      (waiting [0x0100]).stream.head? = some (encode (.start 0)) ∧ (waiting [0x0100]).phase ≠ .busy) ∧
    ((Instr.readOut 63).wellFormed = true ∧ NoReset (busyAt 3 true 1 [0x053F]) ∧
      (busyAt 3 true 1 [0x053F]).stream.head? = some (encode (.readOut 63)) ∧ (busyAt 3 true 1 [0x053F]).phase = .busy ∧
      (Instr.readOut 63).isRead = true ∧ (busyAt 3 true 1 [0x053F]).slack ≠ 0) := by
  simp only [NoReset]; decide

/-- A held CHAR with a read allowed, and a read whose turn is over. -/
theorem witness_EngineStepsWhileBusyAndCommandsHold :
    (NoReset (busyAt 0 true 1 [0x0230]) ∧ (busyAt 0 true 1 [0x0230]).phase = .busy ∧
      ∀ w, (busyAt 0 true 1 [0x0230]).stream.head? = some w → (decode w).isRead = true →
        (busyAt 0 true 1 [0x0230]).slack = 0) ∧
    (NoReset (busyAt 23 true 0 [0x0400]) ∧ (busyAt 23 true 0 [0x0400]).phase = .busy ∧
      ∀ w, (busyAt 23 true 0 [0x0400]).stream.head? = some w → (decode w).isRead = true →
        (busyAt 23 true 0 [0x0400]).slack = 0) := by
  refine ⟨⟨rfl, rfl, fun w h => ?_⟩, rfl, rfl, fun _ _ _ => rfl⟩
  obtain rfl : (0x0230 : CommandWord) = w := by simpa [busyAt] using h
  decide

theorem witness_BlockWaitsForACommand :
    NoReset (finished []) ∧ (finished []).phase ≠ .busy ∧ (finished []).stream = [] :=
  ⟨rfl, by simp [finished], rfl⟩

/-- One step that takes no command, one that takes one. -/
theorem witness_OneResponseForEachCommandInOrder :
    (∃ t, step (busyAt 0 true 0 []) = .next t) ∧ ∃ t, step (waiting [0x0100]) = .next t ∧ t.resps = [0x01] :=
  ⟨⟨_, rfl⟩, _, rfl, by decide⟩

/-! ## Witnesses: the commands -/

theorem witness_StartOpensAComputation :
    (finished []).phase ≠ .busy ∧ State.reset.phase ≠ .busy ∧ (busyAt 0 true 0 []).phase = .busy := by
  refine ⟨by simp [finished], by decide, by decide⟩

/-- Each clause of CHAR: a byte next to the digits, the first digit, and a second digit at FILL = 0, 134 and 135. -/
theorem witness_CharTakesOneCharacter :
    (absorbing 135 true 0 []).phase = .absorb ∧ (absorbing 135 true 0 []).err = .none ∧
    (absorbing 135 true 0 []).fill.toNat = 135 ∧ (absorbing 134 true 0 []).fill.toNat = 134 ∧
    (absorbing 0 true 0 []).fill.toNat < 135 ∧ (absorbing 135 true 0 []).nibp = true ∧
    (absorbing 135 false 0 []).nibp = false ∧ valid 0x2F = false ∧ valid 0x67 = false ∧ valid 0x66 = true ∧
    State.reset.phase = .idle ∧ (failed .invalidLength []).phase = .error ∧ (busyAt 0 true 0 []).phase = .busy := by
  decide

theorem witness_FinishPadsOrRaises :
    (absorbing 135 false 0 []).phase = .absorb ∧ (absorbing 135 false 0 []).err = .none ∧
    (absorbing 135 false 0 []).nibp = false ∧ (absorbing 0 true 9 []).phase = .absorb ∧
    (absorbing 0 true 9 []).err = .none ∧ (absorbing 0 true 9 []).nibp = true ∧ (finished []).phase = .done :=
  ⟨rfl, rfl, rfl, rfl, rfl, rfl, rfl⟩

theorem witness_ReadStatusRespondsStatus :
    (busyAt 23 true 0 []).phase = .busy ∧ (busyAt 23 true 0 []).err = .none := by decide

theorem witness_ReadOutRespondsOneCharacter :
    ((63 : Byte).toNat < 64 ∧ (finished []).phase = .done) ∧ ¬ ((finished []).phase = .done ∧ (64 : Byte).toNat < 64) ∧
    ¬ (State.reset.phase = .done ∧ (63 : Byte).toNat < 64) := by
  refine ⟨⟨by decide, rfl⟩, by decide, by decide⟩

theorem witness_ReservedOpcodesRaiseProtocolError :
    (Instr.reserved00 0xFF).isReserved = true ∧ (Instr.reserved80 0xFF 0).isReserved = true ∧
    (absorbing 0 true 3 []).phase = .absorb ∧ (0x00FF : CommandWord).toNat / 256 = 0 ∧
    6 ≤ (0x0600 : CommandWord).toNat / 256 := by decide

/-! ## Witnesses: errors -/

theorem witness_RaiseIsTheOnlyWayIntoError :
    Err.protocolError ≠ .none ∧ ∃ t, step (waiting [0x0230]) = .next t ∧ (waiting [0x0230]).phase ≠ .error ∧
      t.phase = .error := ⟨by decide, _, rfl, by decide, by decide⟩

/-- Each cause: an invalid character, an odd FINISH, CHAR in IDLE, FINISH in DONE, a reserved opcode in ABSORB. -/
theorem witness_EachErrorHasItsCause :
    (after (absorbing 0 false 0 [0x0220])).err = .invalidCharacter ∧ (after (absorbing 0 true 9 [0x0300])).err = .invalidLength ∧
    (after (waiting [0x0230])).err = .protocolError ∧ (after (finished [0x0300])).err = .protocolError ∧
    (after (absorbing 0 true 9 [0xFF00])).err = .protocolError ∧
    ∃ t, step (absorbing 0 false 0 [0x0220]) = .next t ∧ t.phase = .error :=
  ⟨by decide, by decide, by decide, by decide, by decide, _, rfl, by decide⟩

/-- Kept, left by START, left by reset. -/
theorem witness_FirstErrorStaysUntilStartOrReset :
    (∃ t, step (failed .invalidLength [0x0220]) = .next t ∧ t.err = .invalidLength) ∧
    (∃ t, step (failed .invalidLength [0x0100]) = .next t ∧ t.phase = .absorb) ∧
    ∃ t, step { failed .invalidLength [] with resetIn := [true] } = .next t ∧ t.phase = .idle :=
  ⟨⟨_, rfl, by decide⟩, ⟨_, rfl, by decide⟩, _, rfl, by decide⟩

theorem witness_ErrorIgnoresCommands :
    (failed .invalidLength []).phase = .error ∧ (failed .invalidLength []).err ≠ .none ∧
    (Instr.reserved00 0).isReserved = true := by decide

/-- BUSY left by the last round, and by reset. -/
theorem witness_OnlyTheLastRoundOrResetLeavesBusy :
    ((busyAt 23 true 0 []).phase = .busy ∧ (busyAt 23 true 0 []).round.toNat ≤ 23 ∧
      ∃ t, step (busyAt 23 true 0 []) = .next t ∧ t.phase ≠ .busy) ∧
    (pressed.phase = .busy ∧ pressed.round.toNat ≤ 23 ∧ ∃ t, step pressed = .next t ∧ t.phase ≠ .busy) :=
  ⟨⟨rfl, by decide, _, rfl, by decide⟩, rfl, by decide, _, rfl, by decide⟩

theorem witness_NoPartialDigestIsReturned :
    (DoneShowsDigest (finished []) ∧ ∃ t, exec (.readOut 63) (finished []) = .next t) ∧
    (DoneShowsDigest (busyAt 23 true 0 []) ∧ ∃ t, exec (.readOut 0) (busyAt 23 true 0 []) = .next t) :=
  ⟨⟨fun _ => rfl, _, rfl⟩, fun h => by simp [busyAt] at h, _, rfl⟩

/-- Two states that differ in FILL, NIBP and HI. -/
theorem witness_ReadsSeeOnlyStatusAndOut :
    (Instr.readOut 63).isRead = true ∧ (absorbing 135 true 9 []).phase = (absorbing 0 false 0 []).phase ∧
    (absorbing 135 true 9 []).err = (absorbing 0 false 0 []).err ∧
    (absorbing 135 true 9 []).out = (absorbing 0 false 0 []).out ∧
    (absorbing 135 true 9 []).fill ≠ (absorbing 0 false 0 []).fill := ⟨rfl, rfl, rfl, rfl, by decide⟩

/-! ## Witnesses: the serialized view, the permutation, the engine -/

/-- The last byte of S, and two bytes of one lane. -/
theorem witness_SerializedByteReadsBackWhatWasWritten :
    sByte (writeS zeroLanes 199 0xAB) 199 = 0xAB ∧ sByte (writeS zeroLanes 199 0xAB) 198 = 0 := by decide

theorem witness_XorIntoSIsAWriteOfTheXor :
    sByte (xorS (writeS zeroLanes 199 0x0F) 199 0xFF) 199 = 0xF0 ∧ (199 : Nat) < 200 := by decide

theorem witness_CharChangesOnlyTheByteAtFill :
    (absorbing 135 true 9 []).phase = .absorb ∧ (absorbing 135 true 9 []).fill.toNat ≤ 135 ∧ valid 0x46 = true ∧
    (absorbing 135 true 9 []).nibp = true := by decide

/-- FILL = 135, where one byte takes both padding bits, and FILL = 0. -/
theorem witness_FinishChangesOnlyThePaddingBytes :
    (absorbing 135 false 0 []).phase = .absorb ∧ (absorbing 135 false 0 []).fill.toNat = 135 ∧
    (absorbing 135 false 0 []).nibp = false ∧ (absorbing 0 false 0 []).fill.toNat ≤ 135 := by decide

theorem witness_RotationMovesEachBit :
    (rol64 0x8000000000000000 63).getLsbD ((63 + 63) % 64) = true := by decide

/-- The corners of the bit-level statements: x = y = 4, z = 63, and the last round constant. -/
theorem witness_ThetaAddsTheTwoNeighbourColumns :
    (4 : Nat) < 5 ∧ (63 : Nat) < 64 ∧
      (lane (theta (setLane zeroLanes 2 3 0x8000000000000000)) 3 4).getLsbD 63 = true := by decide +kernel

theorem witness_RhoThenPiMovesEachRotatedLane :
    (4 : Nat) < 5 ∧ lane (piStep (rhoStep (setLane zeroLanes 4 4 0x1))) 4 ((2 * 4 + 3 * 4) % 5) = 0x4000 := by decide +kernel

theorem witness_ChiAndIotaCombineOldLanes :
    (4 : Nat) < 5 ∧ (63 : Nat) < 64 ∧ (lane (iota (chi zeroLanes) 23) 0 0).getLsbD 63 = true := by decide +kernel

theorem witness_TablesMatchTheirGenerators : (23 : Nat) < 24 ∧ (3, 3, 21) ∈ rhoWalk 24 0 1 0 := by decide

theorem witness_EngineStepRunsOneRound :
    (busyAt 22 false 0 []).round.toNat < 23 ∧ (busyAt 23 false 0 []).round.toNat = 23 ∧
    (busyAt 23 false 0 []).final = false ∧ (busyAt 23 true 0 []).final = true := by decide

theorem witness_TwentyFourEngineStepsAreKeccakF :
    (busyAt 0 true 0 []).phase = .busy ∧ (busyAt 0 true 0 []).round = 0 ∧ (busyAt 0 true 0 []).final = true ∧
    (busyAt 0 false 0 []).final = false := by decide

/-- From the first and from the last round, with a poll waiting. -/
theorem witness_BusyEndsUnderEverySchedule :
    (busyAt 0 true 5 [0x0400]).phase = .busy ∧ (busyAt 0 true 5 [0x0400]).round.toNat ≤ 23 ∧
    (busyAt 0 true 5 [0x0400]).resetIn = [] ∧ (busyAt 23 false 5 [0x0400]).round.toNat ≤ 23 := by decide

theorem witness_HeldCommandIsAcceptedAfterTheRounds :
    (busyAt 23 true 5 [0x0100]).phase = .busy ∧ (busyAt 23 true 5 [0x0100]).round.toNat ≤ 23 ∧
    (busyAt 23 true 5 [0x0100]).resetIn = [] ∧ (busyAt 23 true 5 [0x0100]).stream = 0x0100 :: [] ∧
    (decode 0x0100).isRead = false := by decide

/-! ## Witnesses: the pure functions and the whole block -/

theorem witness_HexDigitValues :
    hexval 0x30 = 0 ∧ hexval 0x39 = 9 ∧ hexval 0x41 = 10 ∧ hexval 0x46 = 15 ∧ hexval 0x61 = 10 ∧ hexval 0x66 = 15 := by decide

theorem witness_LetterCaseDoesNotChangeTheResult :
    (text ['D', 'e', 'A', 'd']).map lowerHex = (text ['d', 'e', 'a', 'd']).map lowerHex := by decide

theorem witness_KeccakFailsExactlyOnBadText :
    (∃ c ∈ text ['a', 'g'], valid c = false) ∧
    ((∀ c ∈ text ['a', 'b', 'c'], valid c = true) ∧ (text ['a', 'b', 'c']).length % 2 = 1) ∧
    ((∀ c ∈ text ['a', 'B'], valid c = true) ∧ (text ['a', 'B']).length % 2 = 0) := by decide

/-- The last character of a digest of 0xFF bytes. -/
theorem witness_FormattedDigestIsLowercaseHex :
    (63 : Nat) < 64 ∧ isDigestChar (encodeDigest (Vector.replicate 32 0xFF))[63] = true := by decide +kernel

/-- q = 1 and q ≠ 1. -/
theorem witness_PaddingBytes : 136 - (List.replicate 135 (0 : Byte)).length % 136 = 1 ∧ 136 - ([] : List Byte).length % 136 ≠ 1 := by
  simp

theorem witness_BlocksSplitThePaddedMessage : ∃ b, b ∈ blocks (pad []) := by
  have h : (blocks (pad [])).length = 1 := by simp [blocks, pad, padding]
  exact ⟨_, List.getElem_mem (by omega : 0 < _)⟩

theorem witness_ReadDigestReturnsTheOutput :
    (finished readDigest).phase = .done ∧ (finished readDigest).resetIn = [] ∧ (finished readDigest).stream = readDigest :=
  ⟨rfl, rfl, rfl⟩

/-- HASH "aB" with a poll between its commands; and the two failures. -/
theorem witness_HashSequenceComputesKeccak256 :
    ((waiting [0x0100, 0x0400, 0x0261, 0x0242, 0x0300, 0x0400]).phase ≠ .busy ∧
      (waiting [0x0100, 0x0400, 0x0261, 0x0242, 0x0300, 0x0400]).resetIn = [] ∧
      ((waiting [0x0100, 0x0400, 0x0261, 0x0242, 0x0300, 0x0400]).stream.map decode).filter (fun i => !i.isRead) =
        .start 0 :: (text ['a', 'B']).map .char ++ [.finish 0]) ∧
    (∃ h, keccak256 (text ['a', 'B']) = .ok h) ∧ keccak256 (text ['a', 'g']) = .error .invalidCharacter ∧
    keccak256 (text ['a', 'B', 'c']) = .error .invalidLength := by
  have h : hexDecode (text ['a', 'B']) = .ok [0xAB] := by decide
  have h1 : hexDecode (text ['a', 'g']) = .error .invalidCharacter := by decide
  have h2 : hexDecode (text ['a', 'B', 'c']) = .error .invalidLength := by decide
  exact ⟨by decide, ⟨_, by rw [keccak256, h]⟩, by rw [keccak256, h1], by rw [keccak256, h2]⟩

end Sys2Proof.Tests
end

/-! PROOFS. Padding and the split into blocks (42_sponge.md R150, R152), from the padding and block laws of
Laws/Sponge.lean. -/

namespace Sys2Proof.Machine

/-! ## The padding of a message -/

/-- Where the message leaves room for one byte only, 0x01 and 0x80 fall on the same byte. -/
theorem padding_one : padding 1 = [0x81] := by decide

theorem length_pad (m : List Byte) : (pad m).length = m.length + (136 - m.length % 136) := by
  simp [pad, padding_length]

/-- The padded message is one block longer than the message's whole blocks. -/
theorem length_pad_eq_blocks (m : List Byte) : (pad m).length = 136 * (m.length / 136 + 1) := by
  rw [length_pad]
  omega

theorem take_pad (m : List Byte) : (pad m).take m.length = m := List.take_left

theorem drop_pad (m : List Byte) : (pad m).drop m.length = padding (136 - m.length % 136) := List.drop_left

/-- Settles O48: the padding is a single byte exactly when q = 1, and is written out by `padding_long` for q of at least 2. -/
theorem paddingBytes : Obligations.PaddingBytes := by
  intro m
  refine ⟨_, rfl, length_pad m, ?_, take_pad m, fun hq => ?_, fun hq => ?_⟩
  · rw [length_pad_eq_blocks, Nat.mul_mod_right]
  · rw [drop_pad, hq, padding_one]
  · obtain ⟨q, hlong⟩ : ∃ q, 136 - m.length % 136 = q + 2 := ⟨136 - m.length % 136 - 2, by omega⟩
    rw [drop_pad, hlong, padding_long, Nat.add_sub_cancel]
    rfl

/-! ## The blocks of a byte string -/

theorem length_blocks (p : List Byte) : (blocks p).length = p.length / 136 := by simp [blocks]

/-- Every block is full: the block index stays below the number of whole blocks. -/
theorem length_of_mem_blocks {p b : List Byte} (hb : b ∈ blocks p) : b.length = 136 := by
  obtain ⟨i, hi, rfl⟩ := List.mem_map.mp hb
  rw [List.mem_range, Config.rateBytes] at hi
  simp only [List.length_take, List.length_drop, Config.rateBytes]
  omega

/-- A string of whole blocks is its blocks in order, by induction on their number. -/
theorem flatten_blocks (n : Nat) (p : List Byte) (hp : p.length = 136 * n) : (blocks p).flatten = p := by
  induction n generalizing p with
  | zero =>
    obtain rfl : p = [] := List.length_eq_zero_iff.mp hp
    rfl
  | succ n ih =>
    have hfirst : (p.take 136).length = 136 := by rw [List.length_take]; omega
    have hrest : (p.drop 136).length = 136 * n := by rw [List.length_drop]; omega
    calc (blocks p).flatten
        = (blocks (p.take 136 ++ p.drop 136)).flatten := by rw [List.take_append_drop]
      _ = p.take 136 ++ (blocks (p.drop 136)).flatten := by rw [blocks_append _ _ hfirst, List.flatten_cons]
      _ = p := by rw [ih _ hrest, List.take_append_drop]

/-- Settles O49: the padded message is a string of L/136 + 1 whole blocks. -/
theorem blocksSplitThePaddedMessage : Obligations.BlocksSplitThePaddedMessage := by
  intro m
  refine ⟨flatten_blocks _ _ (length_pad_eq_blocks m), ?_, fun b => length_of_mem_blocks⟩
  rw [length_blocks, length_pad_eq_blocks, Nat.mul_div_cancel_left _ (by decide)]

end Sys2Proof.Machine

/-! PROOFS. READ_STATUS in every phase, and the commands that ERROR ignores (44_commands.md R185, R189), from the exec arms
and the phase table of Laws/Commands.lean. -/

namespace Sys2Proof.Machine

open Sys2Proof.Claims

/-! ## The statements' words for a response -/

theorem respondStatus_eq_answered (s : State) : respondStatus s = answered s.status s := rfl

/-- STATUS in ERROR is the response that raised the error it holds (60_exceptions.md R211). -/
theorem statusByte_error (e : Err) : statusByte .error e = errorResponse e := by cases e <;> decide

/-! ## READ_STATUS -/

/-- The word 0x04xx carries the opcode of READ_STATUS. -/
theorem readStatus_word (operand : Byte) : 0x0400 ||| operand.setWidth 16 = wordOf 0x04 operand := rfl

theorem decode_wordOf_readStatus (operand : Byte) : decode (wordOf 0x04 operand) = .readStatus operand := by
  simp [decode]

theorem exec_readStatus_eq_answered (operand : Byte) (s : State) :
    exec (.readStatus operand) s = .next (answered s.status s) := by
  rw [exec_readStatus, respondStatus_eq_answered]

/-- Settles O17: the response is STATUS, whose value in BUSY with no error is 0x02. -/
theorem readStatusRespondsStatus : Obligations.ReadStatusRespondsStatus := by
  intro operand s
  refine ⟨?_, exec_readStatus_eq_answered operand s, fun hbusy hnone => ?_⟩
  · rw [readStatus_word, decode_wordOf_readStatus]
  · have hstatus : s.status = 0x02 := by rw [status_eq, hbusy, hnone, statusByte_busy_none]
    rw [exec_readStatus_eq_answered, hstatus]

/-! ## CHAR, FINISH and the reserved opcodes in ERROR -/

/-- CHAR, FINISH and the reserved opcodes go through the phase table (R181); only their effect in ABSORB differs. -/
theorem exec_eq_byPhase {i : Instr} (h : (∃ c, i = .char c) ∨ (∃ o, i = .finish o) ∨ i.isReserved = true) (s : State) :
    ∃ f, exec i s = .next (byPhase f s) := by
  obtain ⟨c, rfl⟩ | ⟨o, rfl⟩ | hres := h
  · exact ⟨_, exec_char c s⟩
  · exact ⟨_, exec_finish o s⟩
  · exact ⟨_, exec_reserved i hres s⟩

/-- Settles O26: the phase table's row for ERROR is the same whatever the command does in ABSORB. -/
theorem errorIgnoresCommands : Obligations.ErrorIgnoresCommands := by
  intro i s herror _ hi
  obtain ⟨f, hexec⟩ := exec_eq_byPhase hi s
  constructor
  · rw [hexec, byPhase_error f s herror, respondStatus_eq_answered]
  · rw [status_eq, herror, statusByte_error]

end Sys2Proof.Machine

/-! PROOFS. What one step can answer, and the invariants of 10_state.md section 9 kept by it, from the inversion lemmas
exec_cases, engineStep_cases and step_kind. -/

namespace Sys2Proof.Machine

/-! ## Everything a step can answer -/

/-- No command's meaning is a fault or a refusal (93_implementation_defined.md part 1). -/
theorem exec_answers (i : Instr) (s : State) : ∃ t, exec i s = .next t := by
  cases i <;> exact ⟨_, rfl⟩

/-- The possible results of a step, with those of its command laid open. -/
inductive StepResult (s : State) : State → Prop where
  | reset (hr : resetAsserted s = true) : StepResult s (applyReset (clockReset s))
  | host (hr : resetAsserted s = false) (hp : s.phase ≠ .busy) (i : Instr) (hc : nextCommand s = some i) (t : State)
      (ht : exec i (clockReset s) = .next t) : StepResult s t
  | idle (hr : resetAsserted s = false) (hp : s.phase ≠ .busy) (hc : nextCommand s = none) : StepResult s (clockReset s)
  | poll (hr : resetAsserted s = false) (hp : s.phase = .busy) (i : Instr) (hc : nextCommand s = some i)
      (hi : i.isRead = true) (v : Byte) : StepResult s (respond v (takePoll (clockReset s)))
  | engine (hr : resetAsserted s = false) (hp : s.phase = .busy) : StepResult s (engineStep (clockReset s))

/-- Every step answers a next state, and it is one of these. -/
theorem step_answers (s : State) : ∃ t, step s = .next t ∧ StepResult s t := by
  have hkind := step_kind s
  generalize hstep : step s = outcome at hkind
  cases hkind with
  | reset hr => exact ⟨_, rfl, .reset hr⟩
  | host hr hp i hc =>
    obtain ⟨t, ht⟩ := exec_answers i (clockReset s)
    exact ⟨t, ht, .host hr hp i hc t ht⟩
  | idle hr hp hc => exact ⟨_, rfl, .idle hr hp hc⟩
  | poll hr hp i hc hi hs =>
    obtain ⟨v, hv⟩ := exec_read hi (takePoll (clockReset s))
    exact ⟨_, hv, .poll hr hp i hc hi v⟩
  | engine hr hp hc => exact ⟨_, rfl, .engine hr hp⟩

/-- The inversion lemma of step for its next state. -/
theorem step_cases {s t : State} (h : step s = .next t) : StepResult s t := by
  obtain ⟨u, hu, hres⟩ := step_answers s
  rw [h] at hu
  injection hu with hu
  rwa [hu]

/-- Settles O5: `step_answers` names the next state. -/
theorem everyStepAnswersANextState : Obligations.EveryStepAnswersANextState := fun s =>
  (step_answers s).imp fun _ h => h.1

/-! ## The invariants speak of the registers alone -/

theorem stateInv_respond {s : State} (h : StateInv s) (v : Byte) : StateInv (respond v s) := { h with }

theorem stateInv_clockReset {s : State} (h : StateInv s) : StateInv (clockReset s) := { h with }

theorem stateInv_takePoll {s : State} (h : StateInv s) : StateInv (takePoll s) := by
  unfold takePoll
  split
  · exact { h with }
  · exact h

/-! ## The invariants after each effect -/

/-- With every register zero, only the tie between ERR and PHASE (R42.2) is left to hold. -/
theorem stateInv_clearAll {p : Phase} {e : Err} (h : e ≠ .none ↔ p = .error) (s : State) : StateInv (clearAll p e s) := by
  constructor <;> simp [h]

/-- A permutation starts from ABSORB with no nibble pending and OUT zero. -/
theorem stateInv_startPermutation {s : State} (f : Bool) (herr : s.err = .none) (hout : s.out = zeroOut)
    (hnibp : s.nibp = false) (hhi : s.hi = 0) : StateInv (startPermutation f s) := by
  constructor <;> simp [herr, hout, hnibp, hhi]

theorem StateInv.err_none {s : State} (h : StateInv s) (hp : s.phase ≠ .error) : s.err = .none :=
  by_contra fun he => hp (h.err_iff.mp he)

/-- Every command keeps the invariants, by the cases of its result. -/
theorem exec_keeps_stateInv {i : Instr} {s t : State} (h : StateInv s) (ht : exec i s = .next t) : StateInv t := by
  cases exec_cases ht with
  | held => exact h
  | read hi v => exact stateInv_respond h v
  | ignored => exact stateInv_respond h _
  | opened => exact stateInv_respond (stateInv_clearAll (by decide) s) _
  | raised hp hi hs e he => exact stateInv_respond (stateInv_clearAll (by simp [he]) s) _
  | firstNibble hp c hi hv hn =>
    apply stateInv_respond
    exact { h with nibble_absorb := fun hne => absurd hp hne, hi_zero := by simp }
  | byteAbsorbed hp c hi hv hn hf =>
    apply stateInv_respond
    have hfill : (s.fill + 1).toNat ≤ 135 := by
      have := h.fill_le
      bv_omega
    exact { h with
      fill_le := hfill, nibble_absorb := fun _ => ⟨rfl, rfl⟩, hi_zero := fun _ => rfl
      closed_zero := by simp [hp], busy_fill := by simp [hp] }
  | blockFilled hp c hi hv hn hf =>
    apply stateInv_respond
    exact stateInv_startPermutation false (h.err_none (by simp [hp])) (h.out_zero (by simp [hp])) rfl rfl
  | finished hp o hi hn =>
    apply stateInv_respond
    exact stateInv_startPermutation true (h.err_none (by simp [hp])) (h.out_zero (by simp [hp])) hn (h.hi_zero hn)

/-- A round keeps the invariants: ROUND counts up to 23 and is zero again in the phase that follows. -/
theorem engineStep_keeps_stateInv {s : State} (h : StateInv s) (hp : s.phase = .busy) : StateInv (engineStep s) := by
  have herr := h.err_none (by simp [hp])
  obtain ⟨hnibp, hhi⟩ := h.nibble_absorb (by simp [hp])
  have hfill := h.busy_fill hp
  have hout := h.out_zero (by simp [hp])
  obtain ⟨hround, heq⟩ | ⟨_, hfinal, heq⟩ | ⟨_, _, heq⟩ := engineStep_cases s
  · have hnext : (s.round.toNat + 1) % 32 ≤ 23 := by omega
    rw [heq]
    constructor <;> simp [hp, herr, hnibp, hhi, hfill, hout, hnext]
  · rw [heq]
    constructor <;> simp [herr, hhi, hfill, hout, hfinal]
  · rw [heq]
    constructor <;> simp [herr, hnibp, hhi, hfill]

/-- Settles O3: reset clears the registers, and commands and rounds keep the invariants. -/
theorem stepKeepsTheInvariants : Obligations.StepKeepsTheInvariants := by
  intro s t h ht
  cases step_cases ht with
  | reset => exact stateInv_clearAll (by decide) _
  | host _ _ i _ _ hexec => exact exec_keeps_stateInv (stateInv_clockReset h) hexec
  | idle => exact stateInv_clockReset h
  | poll _ _ _ _ _ v => exact stateInv_respond (stateInv_takePoll (stateInv_clockReset h)) v
  | engine _ hp => exact engineStep_keeps_stateInv (stateInv_clockReset h) hp

theorem reset_eq_clearAll : State.reset = clearAll .idle .none State.reset := rfl

/-- Settles O2: the reset state has every register zero. -/
theorem resetStateMeetsTheInvariants : Obligations.ResetStateMeetsTheInvariants :=
  ⟨reset_eq_clearAll ▸ stateInv_clearAll (by decide) _, fun hdone => by cases hdone⟩

/-! ## What OUT shows in DONE -/

theorem doneShowsDigest_of_not_done {s : State} (h : s.phase ≠ .done) : DoneShowsDigest s := fun hdone => absurd hdone h

/-- A command that ends in DONE found DONE and changed no register. -/
theorem exec_keeps_doneShowsDigest {i : Instr} {s t : State} (h : DoneShowsDigest s) (ht : exec i s = .next t) :
    DoneShowsDigest t := by
  cases exec_cases ht with
  | held => exact h
  | read => exact h
  | ignored => exact h
  | opened => exact doneShowsDigest_of_not_done (by simp)
  | raised => exact doneShowsDigest_of_not_done (by simp)
  | firstNibble hp => exact doneShowsDigest_of_not_done (by simp [hp])
  | byteAbsorbed hp => exact doneShowsDigest_of_not_done (by simp [hp])
  | blockFilled => exact doneShowsDigest_of_not_done (by simp)
  | finished => exact doneShowsDigest_of_not_done (by simp)

/-- A round that ends in DONE is `complete`, which formats the state it leaves. -/
theorem engineStep_doneShowsDigest {s : State} (hp : s.phase = .busy) : DoneShowsDigest (engineStep s) := by
  obtain ⟨_, heq⟩ | ⟨_, _, heq⟩ | ⟨_, _, heq⟩ := engineStep_cases s
  · rw [heq]
    exact doneShowsDigest_of_not_done (by simp [hp])
  · rw [heq]
    exact doneShowsDigest_of_not_done (by simp)
  · rw [heq]
    exact fun _ => complete_out _

/-- Settles O4: OUT is written by `complete` alone, and DONE is left or kept whole by all else. -/
theorem stepKeepsTheDigestInDone : Obligations.StepKeepsTheDigestInDone := by
  intro s t h ht
  cases step_cases ht with
  | reset => exact doneShowsDigest_of_not_done (by simp)
  | host _ _ i _ _ hexec => exact exec_keeps_doneShowsDigest (s := clockReset s) h hexec
  | idle => exact h
  | poll _ hp => exact doneShowsDigest_of_not_done (by simp [hp])
  | engine _ hp => exact engineStep_doneShowsDigest hp

/-! ## STATUS under the invariants -/

/-- Settles O22: ERR is NONE in every phase but ERROR (R42.2), where it is one of three. -/
theorem reachableStatusValues : Obligations.ReachableStatusValues := by
  intro s h
  rw [status_eq]
  cases hp : s.phase with
  | error => cases he : s.err <;> simp [h.err_iff.mpr hp] at he ⊢ 
  | idle | absorb | busy | done => simp [h.err_none (hp ▸ by decide)]

end Sys2Proof.Machine

/-! PROOFS. The encoding of commands (30_encoding.md section 2): decoding a word by its opcode, decode of encode, and that
every word is exactly one command, from the field and row laws of Laws/Encoding.lean and Laws/PerInstr.lean. -/

namespace Sys2Proof

/-! ## Decoding by opcode -/

/-- The reserved rows of the opcode map by their ranges (R72, R74). -/
theorem decode_wordOf_reserved {opcode : Byte} (h : 6 ≤ opcode.toNat) (operand : Byte) :
    decode (wordOf opcode operand) =
      if opcode.toNat ≤ 0x07 then .reserved06 opcode operand
      else if opcode.toNat ≤ 0x0F then .reserved08 opcode operand
      else if opcode.toNat ≤ 0x1F then .reserved10 opcode operand
      else if opcode.toNat ≤ 0x3F then .reserved20 opcode operand
      else if opcode.toNat ≤ 0x7F then .reserved40 opcode operand
      else .reserved80 opcode operand := by
  obtain ⟨h0, h1, h2, h3, h4, h5, h06, h08, h10, h20, h40⟩ := reserved_tests opcode h
  simp only [decode, opcodeOf_wordOf, operandOf_wordOf, h0, h1, h2, h3, h4, h5, if_false, h06, h08, h10, h20, h40]
  refine ite_congr (propext ⟨And.right, fun hle => ⟨h, hle⟩⟩) (fun _ => rfl) fun h07 => ?_
  refine ite_congr (propext ⟨And.right, fun hle => ⟨by omega, hle⟩⟩) (fun _ => rfl) fun h0F => ?_
  refine ite_congr (propext ⟨And.right, fun hle => ⟨by omega, hle⟩⟩) (fun _ => rfl) fun h1F => ?_
  refine ite_congr (propext ⟨And.right, fun hle => ⟨by omega, hle⟩⟩) (fun _ => rfl) fun h3F => ?_
  exact ite_congr (propext ⟨And.right, fun hle => ⟨by omega, hle⟩⟩) (fun _ => rfl) fun _ => rfl

/-- Each well-formed command is decoded from its word: the row's range tells a reserved opcode's row. -/
theorem decode_encode {i : Instr} (h : i.wellFormed = true) : decode (encode i) = i := by
  cases i with
  | start | char | finish | readStatus | readOut | reserved00 => simp [encode, decode]
  | reserved06 =>
    simp only [Instr.wellFormed, Bool.and_eq_true, decide_eq_true_eq] at h
    rw [encode, decode_wordOf_reserved (by omega), if_pos (by omega)]
  | reserved08 =>
    simp only [Instr.wellFormed, Bool.and_eq_true, decide_eq_true_eq] at h
    rw [encode, decode_wordOf_reserved (by omega), if_neg (by omega), if_pos (by omega)]
  | reserved10 =>
    simp only [Instr.wellFormed, Bool.and_eq_true, decide_eq_true_eq] at h
    rw [encode, decode_wordOf_reserved (by omega), if_neg (by omega), if_neg (by omega), if_pos (by omega)]
  | reserved20 =>
    simp only [Instr.wellFormed, Bool.and_eq_true, decide_eq_true_eq] at h
    rw [encode, decode_wordOf_reserved (by omega),
      if_neg (by omega), if_neg (by omega), if_neg (by omega), if_pos (by omega)]
  | reserved40 =>
    simp only [Instr.wellFormed, Bool.and_eq_true, decide_eq_true_eq] at h
    rw [encode, decode_wordOf_reserved (by omega),
      if_neg (by omega), if_neg (by omega), if_neg (by omega), if_neg (by omega), if_pos (by omega)]
  | reserved80 =>
    simp only [Instr.wellFormed, decide_eq_true_eq] at h
    rw [encode, decode_wordOf_reserved (by omega),
      if_neg (by omega), if_neg (by omega), if_neg (by omega), if_neg (by omega), if_neg (by omega)]

/-- The byte pair of a command is its word's two fields, which `wordOf` puts together again (R70). -/
theorem decodeBytes_encodeBytes (i : Instr) (rest : List Byte) :
    decodeBytes (encodeBytes i ++ rest) = .ok (decode (encode i), rest) := by
  simp [encodeBytes, decodeBytes, wordOf_fields]

/-- Settles O6: `decode_encode`, once for the word and once for the byte pair. -/
theorem decodeOfEncodeIsTheCommand : Obligations.DecodeOfEncodeIsTheCommand := by
  intro i h
  refine ⟨decode_encode h, fun rest => ?_⟩
  rw [decodeBytes_encodeBytes, decode_encode h]

/-! ## Every word is exactly one command -/

/-- Every opcode has a row, so every word is the word of a well-formed command (R75). -/
theorem exists_wellFormed_encode (w : CommandWord) : ∃ i : Instr, i.wellFormed = true ∧ encode i = w := by
  rw [← wordOf_fields w]
  generalize opcodeOf w = opcode
  generalize operandOf w = operand
  by_cases hlow : opcode.toNat < 6
  · obtain rfl | rfl | rfl | rfl | rfl | rfl : opcode = 0x00 ∨ opcode = 0x01 ∨ opcode = 0x02 ∨ opcode = 0x03 ∨
        opcode = 0x04 ∨ opcode = 0x05 := by bv_omega
    · exact ⟨.reserved00 operand, rfl, rfl⟩
    · exact ⟨.start operand, rfl, rfl⟩
    · exact ⟨.char operand, rfl, rfl⟩
    · exact ⟨.finish operand, rfl, rfl⟩
    · exact ⟨.readStatus operand, rfl, rfl⟩
    · exact ⟨.readOut operand, rfl, rfl⟩
  · by_cases h06 : opcode.toNat ≤ 0x07
    · exact ⟨.reserved06 opcode operand, by simp [Instr.wellFormed]; omega, rfl⟩
    by_cases h08 : opcode.toNat ≤ 0x0F
    · exact ⟨.reserved08 opcode operand, by simp [Instr.wellFormed]; omega, rfl⟩
    by_cases h10 : opcode.toNat ≤ 0x1F
    · exact ⟨.reserved10 opcode operand, by simp [Instr.wellFormed]; omega, rfl⟩
    by_cases h20 : opcode.toNat ≤ 0x3F
    · exact ⟨.reserved20 opcode operand, by simp [Instr.wellFormed]; omega, rfl⟩
    by_cases h40 : opcode.toNat ≤ 0x7F
    · exact ⟨.reserved40 opcode operand, by simp [Instr.wellFormed]; omega, rfl⟩
    exact ⟨.reserved80 opcode operand, by simp [Instr.wellFormed]; omega, rfl⟩

theorem wellFormed_decode (w : CommandWord) : (decode w).wellFormed = true := by
  obtain ⟨i, hwf, rfl⟩ := exists_wellFormed_encode w
  rwa [decode_encode hwf]

theorem encode_decode (w : CommandWord) : encode (decode w) = w := by
  obtain ⟨i, hwf, rfl⟩ := exists_wellFormed_encode w
  rw [decode_encode hwf]

/-- The row of a well-formed command, for every constructor. -/
theorem encode_matches_tableRow (i : Instr) : Laws.TableRow.Statement i := by
  cases i with
  | start => exact Laws.TableRow.start _
  | char => exact Laws.TableRow.char _
  | finish => exact Laws.TableRow.finish _
  | readStatus => exact Laws.TableRow.readStatus _
  | readOut => exact Laws.TableRow.readOut _
  | reserved00 => exact Laws.TableRow.reserved00 _
  | reserved06 => exact Laws.TableRow.reserved06 _ _
  | reserved08 => exact Laws.TableRow.reserved08 _ _
  | reserved10 => exact Laws.TableRow.reserved10 _ _
  | reserved20 => exact Laws.TableRow.reserved20 _ _
  | reserved40 => exact Laws.TableRow.reserved40 _ _
  | reserved80 => exact Laws.TableRow.reserved80 _ _

/-- Settles O7: encode is onto the words, and decode is its inverse on the well-formed commands. -/
theorem everyWordIsExactlyOneCommand : Obligations.EveryWordIsExactlyOneCommand := by
  intro w
  refine ⟨wellFormed_decode w, encode_decode w, fun i hwf hi => ?_, ?_⟩
  · rw [← hi, decode_encode hwf]
  · have hrow := encode_matches_tableRow (decode w) (wellFormed_decode w)
    rwa [encode_decode] at hrow

/-! ## OPCODE alone selects the command -/

/-- A word is put together from its high and its low byte, read as numbers. -/
theorem eq_wordOf_of_div {w : CommandWord} {n : Nat} (h : w.toNat / 256 = n) :
    w = wordOf (BitVec.ofNat 8 n) (BitVec.ofNat 8 (w.toNat % 256)) := by
  have hopcode : opcodeOf w = BitVec.ofNat 8 n := by
    rw [← h, ← opcodeOf_toNat, BitVec.ofNat_toNat, BitVec.setWidth_eq]
  have hoperand : operandOf w = BitVec.ofNat 8 (w.toNat % 256) := by
    rw [← operandOf_toNat, BitVec.ofNat_toNat, BitVec.setWidth_eq]
  rw [← hopcode, ← hoperand, wordOf_fields]

theorem isReserved_decode {w : CommandWord} (h : w.toNat / 256 = 0 ∨ 6 ≤ w.toNat / 256) :
    (decode w).isReserved = true := by
  obtain h0 | h6 := h
  · rw [eq_wordOf_of_div h0]
    simp [decode, Instr.isReserved]
  · rw [← opcodeOf_toNat] at h6
    rw [← wordOf_fields w, decode_wordOf_reserved h6]
    split_ifs <;> rfl

/-- Settles O8: the word is `wordOf` of its opcode and its low byte, and `decode` tests the opcode. -/
theorem opcodeAloneSelectsTheCommand : Obligations.OpcodeAloneSelectsTheCommand := by
  intro w
  refine ⟨fun h => ?_, fun h => ?_, fun h => ?_, fun h => ?_, fun h => ?_, isReserved_decode⟩ <;>
    · conv_lhs => rw [eq_wordOf_of_div h]
      simp [decode]

/-- Settles O9: each word is evaluated. -/
theorem workedWordsDecode : Obligations.WorkedWordsDecode := by
  unfold Obligations.WorkedWordsDecode
  decide

end Sys2Proof

/-! PROOFS. The pure functions: hex digits and texts (40_hexcodec.md), the digest's characters (43_formatter.md), and
the sponge fed byte by byte (42_sponge.md), from the laws of Laws/Sponge.lean. -/

namespace Sys2Proof.Machine

open Sys2Proof.Claims

/-! ## Hex digits -/

/-- Settles O43: the ranges are checked byte by byte. -/
theorem validBytesAreTheHexDigits : Obligations.ValidBytesAreTheHexDigits := by
  constructor
  · decide
  · decide

/-- Settles O44: the values are checked byte by byte. -/
theorem hexDigitValues : Obligations.HexDigitValues := by
  unfold Obligations.HexDigitValues
  decide

/-! ## Letter case -/

theorem valid_lowerHex (c : Byte) : valid (lowerHex c) = valid c := by revert c; decide

theorem hexval_lowerHex (c : Byte) : hexval (lowerHex c) = hexval c := by revert c; decide

theorem pairs_map_lowerHex (t : List Byte) : pairs (t.map lowerHex) = pairs t := by
  induction t using pairs.induct with
  | case1 c0 c1 rest ih => simp only [List.map_cons, pairs, pair, hexval_lowerHex, ih]
  | case2 c => rfl
  | case3 => rfl

/-- The decoder does not see the case of a letter digit. -/
theorem hexDecode_map_lowerHex (t : List Byte) : hexDecode (t.map lowerHex) = hexDecode t := by
  have hall : (t.map lowerHex).all valid = t.all valid := by
    rw [List.all_map]
    exact congrArg t.all (funext valid_lowerHex)
  rw [hexDecode, hexDecode, hall, List.length_map, pairs_map_lowerHex]

theorem keccak256_map_lowerHex (t : List Byte) : keccak256 (t.map lowerHex) = keccak256 t := by
  rw [keccak256, keccak256, hexDecode_map_lowerHex]

/-- Settles O45: both texts give the result of their common lower-case form. -/
theorem letterCaseDoesNotChangeTheResult : Obligations.LetterCaseDoesNotChangeTheResult := by
  intro t u h
  rw [← keccak256_map_lowerHex t, h, keccak256_map_lowerHex]

/-! ## keccak256 of a good and of a bad text -/

theorem hexDecode_invalidCharacter {t : List Byte} (h : ∃ c ∈ t, valid c = false) :
    hexDecode t = .error .invalidCharacter := by
  have hall : t.all valid = false := by simpa [List.all_eq_false] using h
  rw [hexDecode, hall]
  rfl

theorem hexDecode_of_valid {t : List Byte} (h : ∀ c ∈ t, valid c = true) :
    hexDecode t = if t.length % 2 = 1 then .error .invalidLength else .ok (pairs t) := by
  rw [hexDecode, if_pos (List.all_eq_true.mpr h)]

theorem keccak256_invalidCharacter {t : List Byte} (h : ∃ c ∈ t, valid c = false) :
    keccak256 t = .error .invalidCharacter := by
  rw [keccak256, hexDecode_invalidCharacter h]

theorem keccak256_invalidLength {t : List Byte} (h : ∀ c ∈ t, valid c = true) (hodd : t.length % 2 = 1) :
    keccak256 t = .error .invalidLength := by
  rw [keccak256, hexDecode_of_valid h, if_pos hodd]

theorem keccak256_even {t : List Byte} (h : ∀ c ∈ t, valid c = true) (heven : t.length % 2 = 0) :
    keccak256 t = .ok (encodeDigest (hash (pairs t))) := by
  rw [keccak256, hexDecode_of_valid h, if_neg (by omega)]

/-- Settles O46: the three outcomes of the decoder, and its bytes by `pairs_spec`. -/
theorem keccakFailsExactlyOnBadText : Obligations.KeccakFailsExactlyOnBadText := by
  intro t
  refine ⟨keccak256_invalidCharacter, keccak256_invalidLength, fun hvalid heven => ?_⟩
  obtain ⟨hlength, hbytes⟩ := pairs_spec (t.length / 2) t (by omega)
  refine ⟨pairs t, hlength, keccak256_even hvalid heven, fun n hn => ?_⟩
  rw [hbytes n (hlength ▸ hn), pair, pairNibbles_eq]

/-! ## The characters of a digest -/

theorem isDigestChar_hexdigit (n : Nibble) : isDigestChar (hexdigit n) = true := by revert n; decide

theorem isDigestChar_encodeDigest (d : Vector Byte 32) {i : Nat} (h : i < 64) :
    isDigestChar (encodeDigest d)[i] = true := by
  rw [encodeDigest_getElem]
  exact isDigestChar_hexdigit _

theorem valid_of_mem_encodeDigest {d : Vector Byte 32} {c : Byte} (h : c ∈ (encodeDigest d).toList) : valid c = true := by
  obtain ⟨i, hi, rfl⟩ := List.mem_iff_getElem.mp h
  rw [Vector.getElem_toList, encodeDigest_getElem]
  exact valid_hexdigit _

theorem getD_encodeDigest (d : Vector Byte 32) {i : Nat} (h : i < 64) :
    (encodeDigest d).toList.getD i 0 =
      hexdigit (if i % 2 = 0 then (d[i / 2] >>> 4).setWidth 4 else (d[i / 2] &&& 0x0F).setWidth 4) := by
  rw [List.getD_eq_getElem _ _ (by simpa using h), Vector.getElem_toList, encodeDigest_getElem]

/-- The pair of characters of a digest byte gives the byte back. -/
theorem pairs_encodeDigest (d : Vector Byte 32) : pairs (encodeDigest d).toList = d.toList := by
  obtain ⟨hlength, hbytes⟩ := pairs_spec 32 (encodeDigest d).toList (by simp)
  refine List.ext_getElem (by simp [hlength]) fun n hn _ => ?_
  have hn32 : n < 32 := hlength ▸ hn
  have hhigh : 2 * n % 2 = 0 := by omega
  have hlow : ¬ (2 * n + 1) % 2 = 0 := by omega
  have hhalf : (2 * n + 1) / 2 = n := by omega
  have hhalf' : 2 * n / 2 = n := by omega
  rw [← List.getD_eq_getElem _ 0, hbytes n hn32, getD_encodeDigest d (by omega), getD_encodeDigest d (by omega)]
  simp only [hhigh, hlow, hhalf, hhalf', if_true, if_false, pair_hexdigits, Vector.getElem_toList]

/-- Settles O47: every character is a `hexdigit`, and the characters decode in pairs. -/
theorem formattedDigestIsLowercaseHex : Obligations.FormattedDigestIsLowercaseHex := by
  intro d
  refine ⟨fun i h => isDigestChar_encodeDigest d h, ?_⟩
  have heven : ¬ (encodeDigest d).toList.length % 2 = 1 := by simp
  rw [hexDecode_of_valid fun c => valid_of_mem_encodeDigest, if_neg heven, pairs_encodeDigest]

/-! ## Feeding a message byte by byte -/

theorem feedByte_full (a : Lanes) (b : Byte) : feedByte (a, 135) b = (keccakF (xorS a 135 b), 0) := if_pos rfl

theorem feedByte_room (a : Lanes) {n : Nat} (h : n ≠ 135) (b : Byte) : feedByte (a, n) b = (xorS a n b, n + 1) := if_neg h

/-- Bytes that do not fill the block are XORed in one after the other. -/
theorem feedBytes_room (a : Lanes) (n : Nat) (bs : List Byte) (h : n + bs.length < 136) :
    bs.foldl feedByte (a, n) = (xorBytes a n bs, n + bs.length) := by
  induction bs generalizing a n with
  | nil => rfl
  | cons b bs ih =>
    rw [List.length_cons] at h
    rw [List.foldl_cons, feedByte_room a (by omega), ih _ _ (by omega), xorBytes_cons, List.length_cons]
    congr 1
    omega

/-- The 136 bytes of a block are absorbed, and the position is back at the start. -/
theorem feedBytes_block (a : Lanes) (bs : List Byte) (h : bs.length = 136) :
    bs.foldl feedByte (a, 0) = (absorb a bs, 0) := by
  obtain ⟨init, last, rfl⟩ : ∃ init last, bs = init ++ [last] :=
    ⟨_, _, (List.dropLast_append_getLast (List.ne_nil_of_length_pos (by omega))).symm⟩
  have hinit : init.length = 135 := by simpa using h
  rw [List.foldl_append, feedBytes_room a 0 init (by omega), hinit, List.foldl_cons, List.foldl_nil, Nat.zero_add,
    feedByte_full, absorb, xorBytes_append, hinit]
  rfl

/-- The padding bytes XORed in from position n on are 0x01 there and 0x80 at 135 (42_sponge.md R158). -/
theorem xorBytes_padding (a : Lanes) {n : Nat} (h : n < 136) :
    xorBytes a n (padding (136 - n)) = xorS (xorS a n 0x01) 135 0x80 := by
  by_cases hlast : n = 135
  · subst hlast
    rw [padding_one, xorS_xorS_same]
    rfl
  · obtain ⟨q, hq⟩ : ∃ q, 136 - n = q + 2 := ⟨134 - n, by omega⟩
    have hend : n + 1 + q = 135 := by omega
    rw [hq, padding_long, xorBytes_cons, xorBytes_append, xorBytes_zeros, List.length_replicate, hend]
    rfl

/-- A whole block in front of a message stays in front of the padded message, whose padding is the rest's. -/
theorem blocks_pad_append (x m : List Byte) (h : x.length = 136) : blocks (pad (x ++ m)) = x :: blocks (pad m) := by
  have hmod : (x ++ m).length % 136 = m.length % 136 := by
    rw [List.length_append, h]
    omega
  rw [pad, Config.rateBytes, hmod, List.append_assoc, blocks_append _ _ h]
  rfl

/-- A message shorter than a block is padded to one block. -/
theorem blocks_pad_short (m : List Byte) (h : m.length < 136) : blocks (pad m) = [m ++ padding (136 - m.length)] := by
  have hlength : (m ++ padding (136 - m.length)).length = 136 := by
    rw [List.length_append, padding_length]
    omega
  rw [pad, Config.rateBytes, Nat.mod_eq_of_lt h]
  simpa [blocks] using blocks_append _ [] hlength

/-- The incremental form from any state, by induction on the whole blocks in front of the message. -/
theorem feedBytes_eq_absorb_blocks (k : Nat) (m : List Byte) (hk : m.length / 136 = k) (a : Lanes) :
    (m.foldl feedByte (a, 0)).2 = m.length % 136 ∧
    keccakF (xorS (xorS (m.foldl feedByte (a, 0)).1 (m.foldl feedByte (a, 0)).2 0x01) 135 0x80) =
      (blocks (pad m)).foldl absorb a := by
  induction k generalizing m a with
  | zero =>
    have hshort : m.length < 136 := by omega
    rw [feedBytes_room a 0 m (by omega), blocks_pad_short m hshort, Nat.zero_add]
    refine ⟨(Nat.mod_eq_of_lt hshort).symm, ?_⟩
    rw [List.foldl_cons, List.foldl_nil, absorb, xorBytes_append, Nat.zero_add, xorBytes_padding _ hshort]
  | succ k ih =>
    obtain ⟨x, rest, rfl, hx⟩ : ∃ x rest, m = x ++ rest ∧ x.length = 136 :=
      ⟨m.take 136, m.drop 136, (List.take_append_drop 136 m).symm, by rw [List.length_take]; omega⟩
    rw [List.length_append, hx] at hk
    obtain ⟨hpos, hstate⟩ := ih rest (by omega) (absorb a x)
    rw [List.foldl_append, feedBytes_block a x hx, blocks_pad_append x rest hx, List.length_append, hx,
      Nat.add_mod_left, List.foldl_cons]
    exact ⟨hpos, hstate⟩

/-- Settles O50: the incremental form from the zero state. -/
theorem incrementalFormEqualsHash : Obligations.IncrementalFormEqualsHash := fun m =>
  feedBytes_eq_absorb_blocks _ m rfl zeroLanes

end Sys2Proof.Machine

/-! PROOFS. Whose turn the next step is, reset, and what each command does in each phase (44_commands.md sections 1 and 2,
70_reset_and_hazards.md section 1), from the exec arms, the phase table and the step laws. -/

namespace Sys2Proof.Machine

open Sys2Proof.Claims

/-! ## The statements' words for a state -/

theorem clearAll_eq_cleared (p : Phase) (e : Err) (s : State) : clearAll p e s = cleared p e s := rfl

theorem noReset_iff (s : State) : NoReset s ↔ resetAsserted s = false := Iff.rfl

/-- raise is clearing, then the response 0x04 | (E << 3) (60_exceptions.md R211). -/
theorem raise_eq_raised (e : Err) (s : State) : raise e s = raised e s := by
  have hstatus : (clearAll .error e s).status = errorResponse e := statusByte_error e
  rw [raise, respondStatus_eq_answered, hstatus, clearAll_eq_cleared, raised]

theorem respondStatus_absorb {s : State} (hp : s.phase = .absorb) (herr : s.err = .none) :
    respondStatus s = answered 0x01 s := by
  rw [respondStatus_eq_answered, status_eq, hp, herr, statusByte_absorb_none]

theorem respondStatus_busy {s : State} (hp : s.phase = .busy) (herr : s.err = .none) :
    respondStatus s = answered 0x02 s := by
  rw [respondStatus_eq_answered, status_eq, hp, herr, statusByte_busy_none]

theorem openComputation_eq_answered (s : State) : openComputation s = answered 0x01 (cleared .absorb .none s) := by
  rw [openComputation, respondStatus_absorb (clearAll_phase _ _ s) (clearAll_err _ _ s), clearAll_eq_cleared]

/-! ## The host's turn and the engine's turn -/

theorem nextCommand_of_head {s : State} {w : CommandWord} (h : s.stream.head? = some w) :
    nextCommand s = some (decode w) := by
  rw [nextCommand, h, Option.map_some]

theorem head_of_nextCommand {s : State} {i : Instr} (h : nextCommand s = some i) :
    ∃ w, s.stream.head? = some w ∧ decode w = i := by
  rwa [nextCommand, Option.map_eq_some_iff] at h

theorem takePoll_of_busy {s : State} (h : s.phase = .busy) : takePoll s = { s with slack := s.slack - 1 } := if_pos h

/-- Settles O10: the word at the head decodes to the command, and the turn is the host's. -/
theorem stepRunsTheDecodedCommand : Obligations.StepRunsTheDecodedCommand := by
  intro i s hwf hreset hhead
  have hnext : nextCommand s = some i := by rw [nextCommand_of_head hhead, decode_encode hwf]
  refine ⟨fun hp => step_host hreset hp hnext, fun hp hread hslack => ?_⟩
  rw [step_poll hreset hp hnext hread hslack, takePoll_of_busy (clockReset_phase s ▸ hp)]
  rfl

/-- Settles O11: the engine has the turn, and `engineStep` touches neither stream nor responses. -/
theorem engineStepsWhileBusyAndCommandsHold : Obligations.EngineStepsWhileBusyAndCommandsHold := by
  intro s hreset hp hhold
  refine ⟨step_engine hreset hp fun i hnext hread => ?_, engineStep_stream _, engineStep_resps _⟩
  obtain ⟨w, hw, rfl⟩ := head_of_nextCommand hnext
  exact hhold w hw hread

/-- Settles O12: nobody has the turn. -/
theorem blockWaitsForACommand : Obligations.BlockWaitsForACommand := by
  intro s hreset hp hstream
  exact step_idle hreset hp (by simp [nextCommand, hstream])

/-- With the reset input idle for good, a block that is not BUSY runs the command at the head of its stream. -/
theorem step_eq_exec {s : State} {w : CommandWord} {rest : List CommandWord} (hp : s.phase ≠ .busy)
    (hreset : s.resetIn = []) (hstream : s.stream = w :: rest) : step s = exec (decode w) s := by
  have hnext : nextCommand s = some (decode w) := nextCommand_of_head (by simp [hstream])
  rw [step_host (by simp [resetAsserted, hreset]) hp hnext, clockReset_of_nil s hreset]

/-! ## Reset -/

theorem step_of_reset {s : State} {later : List Bool} (h : s.resetIn = true :: later) :
    step s = .next { cleared .idle .none s with resetIn := later } := by
  rw [step_reset (by simp [resetAsserted, h]), applyReset, clearAll_eq_cleared]
  simp [clockReset, cleared, h]

/-- Settles O1: the reset clears every register in one step, and the command it found is taken in IDLE. -/
theorem resetClearsEverythingInEveryPhase : Obligations.ResetClearsEverythingInEveryPhase := by
  refine ⟨fun s later h => step_of_reset h, fun s w rest hreset hstream => ?_, rfl, rfl, rfl⟩
  intro t
  have hidle : t.phase = .idle := rfl
  have hstep : step t = exec (decode w) t := step_eq_exec (by simp [hidle]) rfl hstream
  refine ⟨step_of_reset hreset, hstep, ?_, ?_⟩
  · rintro (⟨c, hw⟩ | ⟨o, hw⟩)
    · rw [hstep, hw, exec_char, byPhase_idle _ t hidle, raise_eq_raised]
    · rw [hstep, hw, exec_finish, byPhase_idle _ t hidle, raise_eq_raised]
  · rintro ⟨o, hw⟩
    rw [hstep, hw, exec_start, unlessBusy_of_not_busy _ t (by simp [hidle]), openComputation_eq_answered]

/-! ## One response for each command -/

/-- A command is taken with its response, or, where it holds in BUSY, neither happens. -/
theorem exec_stream_resps {i : Instr} {s t : State} (ht : exec i s = .next t) :
    (t = s ∧ s.phase = .busy) ∨ (t.stream = s.stream.tail ∧ ∃ v, t.resps = s.resps ++ [v]) := by
  cases exec_cases ht with
  | held hp => exact .inl ⟨rfl, hp⟩
  | read | ignored | opened | raised | firstNibble | byteAbsorbed | blockFilled | finished => exact .inr ⟨rfl, _, rfl⟩

theorem stream_eq_cons_tail {s : State} {i : Instr} (h : nextCommand s = some i) :
    ∃ w, s.stream = w :: s.stream.tail := by
  obtain ⟨w, hw, _⟩ := head_of_nextCommand h
  exact ⟨w, List.eq_cons_of_mem_head? hw⟩

/-- Settles O13: only a host step moves the stream, by one command and one response. -/
theorem oneResponseForEachCommandInOrder : Obligations.OneResponseForEachCommandInOrder := by
  intro s t ht
  cases step_cases ht with
  | reset => exact .inl ⟨rfl, rfl⟩
  | host hr hp i hc _ hexec =>
    obtain ⟨w, hw⟩ := stream_eq_cons_tail hc
    obtain ⟨_, hbusy⟩ | ⟨hstream, v, hresps⟩ := exec_stream_resps hexec
    · exact absurd hbusy hp
    · exact .inr ⟨w, v, by simpa [hstream] using hw, hresps, hr⟩
  | idle => exact .inl ⟨rfl, rfl⟩
  | poll hr _ i hc _ v =>
    obtain ⟨w, hw⟩ := stream_eq_cons_tail hc
    exact .inr ⟨w, v, by simpa using hw, by simp, hr⟩
  | engine => exact .inl ⟨by simp, by simp⟩

/-! ## The commands -/

/-- The word 0x01xx carries the opcode of START. -/
theorem start_word (operand : Byte) : 0x0100 ||| operand.setWidth 16 = encode (.start operand) := rfl

/-- Settles O14: START clears every register outside BUSY, and holds in BUSY. -/
theorem startOpensAComputation : Obligations.StartOpensAComputation := by
  intro operand s
  refine ⟨?_, fun hp => ?_, fun hp => ?_⟩
  · rw [start_word, decode_encode rfl]
  · rw [exec_start, unlessBusy_of_not_busy _ s hp, openComputation_eq_answered]
  · rw [exec_start, unlessBusy_busy _ s hp]

/-- The phase table outside ABSORB (44_commands.md R181) holds of every command that goes through it. -/
theorem outsideAbsorb_of_byPhase {i : Instr} {s : State} {f : State → State} (h : exec i s = .next (byPhase f s)) :
    OutsideAbsorb i s := by
  refine ⟨fun hp => ?_, fun hp => ?_, fun hp => ?_⟩
  · obtain hidle | hdone := hp
    · rw [h, byPhase_idle f s hidle, raise_eq_raised]
    · rw [h, byPhase_done f s hdone, raise_eq_raised]
  · rw [h, byPhase_busy f s hp]
  · rw [h, byPhase_error f s hp, respondStatus_eq_answered]

theorem fill_eq_135 {s : State} (h : s.fill.toNat = 135) : s.fill = 135 := BitVec.eq_of_toNat_eq h

theorem fill_ne_135 {s : State} (h : s.fill.toNat < 135) : s.fill ≠ 135 := by bv_omega

theorem fill_succ (s : State) : BitVec.ofNat 8 (s.fill.toNat + 1) = s.fill + 1 := by bv_omega

/-- Settles O15: `takeChar` in its four cases, each with its STATUS response. -/
theorem charTakesOneCharacter : Obligations.CharTakesOneCharacter := by
  intro c s
  refine ⟨outsideAbsorb_of_byPhase (exec_char c s), fun hp herr _ => ?_⟩
  have hexec : exec (.char c) s = .next (takeChar c s) := by rw [exec_char, byPhase_absorb _ s hp]
  refine ⟨fun hv => ?_, fun hv hn => ?_, fun hv hn hf => ?_, fun hv hn hf => ⟨Config.pollsBeforeRound s.draw, ?_⟩⟩
  · rw [hexec, takeChar_invalid c s hv, raise_eq_raised]
  · rw [hexec, takeChar_first c s hv hn]
    exact congrArg _ (respondStatus_absorb hp herr)
  · rw [hexec, takeChar_room c s hv hn (fill_ne_135 hf), fill_succ, ← pairNibbles_eq]
    exact congrArg _ (respondStatus_absorb hp herr)
  · rw [hexec, takeChar_full c s hv hn (fill_eq_135 hf), hf, ← pairNibbles_eq]
    exact congrArg _ (respondStatus_busy rfl herr)

/-- Settles O16: `finishInput` in its two cases. -/
theorem finishPadsOrRaises : Obligations.FinishPadsOrRaises := by
  intro operand s
  refine ⟨outsideAbsorb_of_byPhase (exec_finish operand s), fun hp herr => ?_⟩
  have hexec : exec (.finish operand) s = .next (finishInput s) := by rw [exec_finish, byPhase_absorb _ s hp]
  refine ⟨fun hn => ?_, fun hn => ⟨Config.pollsBeforeRound s.draw, ?_⟩⟩
  · rw [hexec, finishInput_odd s hn, raise_eq_raised]
  · rw [hexec, finishInput_even s hn]
    exact congrArg _ (respondStatus_busy rfl herr)

/-- Settles O19: every reserved row is `raise` through the phase table. -/
theorem reservedOpcodesRaiseProtocolError : Obligations.ReservedOpcodesRaiseProtocolError := by
  refine ⟨fun i s hi => ⟨outsideAbsorb_of_byPhase (exec_reserved i hi s), fun hp => ?_⟩, fun w => isReserved_decode,
    fun s => rfl⟩
  rw [exec_reserved i hi, byPhase_absorb _ s hp, raise_eq_raised]

/-- Settles O20: these meanings do not look at their operand. -/
theorem ignoredOperandsChangeNothing : Obligations.IgnoredOperandsChangeNothing := fun x y s =>
  ⟨(exec_start x s).trans (exec_start y s).symm, (exec_finish x s).trans (exec_finish y s).symm,
    (exec_readStatus x s).trans (exec_readStatus y s).symm⟩

/-! ## What a read returns -/

theorem respond_eq_answered (v : Byte) (s : State) : respond v s = answered v s := rfl

/-- READ_OUT's character in DONE, within OUT (R186). -/
theorem outChar_of_lt {i : Nat} {s : State} (hp : s.phase = .done) (hi : i < 64) : outChar i s = s.out[i] := by
  rw [outChar_done i s hp]
  simp [Vector.getD, hi]

/-- Everywhere else the response is 0x00 (R186). -/
theorem outChar_otherwise {i : Nat} {s : State} (h : ¬ (s.phase = .done ∧ i < 64)) : outChar i s = 0x00 := by
  by_cases hp : s.phase = .done
  · have hi : ¬ i < 64 := fun hi => h ⟨hp, hi⟩
    rw [outChar_done i s hp]
    simp [Vector.getD, hi]
  · exact outChar_not_done i s hp

/-- Settles O18: the two cases of `outChar`. -/
theorem readOutRespondsOneCharacter : Obligations.ReadOutRespondsOneCharacter := by
  intro i s
  refine ⟨fun hi hp => ?_, fun h => ?_⟩
  · rw [exec_readOut, outChar_of_lt hp hi, respond_eq_answered]
  · rw [exec_readOut, outChar_otherwise h, respond_eq_answered]

theorem statusByte_fields (p : Phase) (e : Err) :
    (statusByte p e).toNat % 8 = (phaseCode p).toNat ∧ (statusByte p e).toNat / 8 % 4 = (errCode e).toNat ∧
      (statusByte p e).toNat / 32 = 0 := by
  cases p <;> cases e <;> decide

/-- Settles O21: the fields of `statusByte` are the codes of PHASE and ERR. -/
theorem statusHoldsPhaseAndError : Obligations.StatusHoldsPhaseAndError := by
  intro s
  obtain ⟨hphase, herr, hzero⟩ := statusByte_fields s.phase s.err
  rw [status_eq]
  refine ⟨hphase.trans ?_, herr.trans ?_, hzero⟩
  · cases s.phase <;> rfl
  · cases s.err <;> rfl

/-- Settles O28: in DONE the character is one of a formatted digest, and 0x00 is no hex digit. -/
theorem noPartialDigestIsReturned : Obligations.NoPartialDigestIsReturned := by
  intro i s t hdigest hexec
  injection hexec with hexec
  subst hexec
  refine ⟨outChar i.toNat s, rfl, fun ⟨hp, hi⟩ => ?_, fun h => ?_⟩
  · simp only [outChar_of_lt hp hi, hdigest hp]
    exact isDigestChar_encodeDigest _ hi
  · rw [outChar_otherwise h]
    decide

/-- Settles O29: READ_STATUS answers a function of PHASE and ERR, READ_OUT one of PHASE and OUT. -/
theorem readsSeeOnlyStatusAndOut : Obligations.ReadsSeeOnlyStatusAndOut := by
  intro i s u hread hphase herr hout
  cases i with
  | readStatus o =>
    refine ⟨s.status, exec_readStatus_eq_answered o s, ?_⟩
    rw [exec_readStatus_eq_answered, status_eq, status_eq, hphase, herr]
  | readOut n =>
    refine ⟨outChar n.toNat s, exec_readOut n s, ?_⟩
    rw [exec_readOut, respond_eq_answered, outChar, outChar, hphase, hout]
  | start | char | finish | reserved00 | reserved06 | reserved08 | reserved10 | reserved20 | reserved40 | reserved80 =>
    simp [Instr.isRead] at hread

end Sys2Proof.Machine

/-! PROOFS. Errors and BUSY: the way into ERROR, its causes and its exits (60_exceptions.md sections 2 and 4), and
the ways out of BUSY, by the cases of a step's result. -/

namespace Sys2Proof.Machine

open Sys2Proof.Claims

/-! ## Into ERROR -/

/-- A command that enters ERROR raises, and is neither a read nor START. -/
theorem exec_enters_error {i : Instr} {s t : State} (ht : exec i s = .next t) (hs : s.phase ≠ .error)
    (hterr : t.phase = .error) : i.isRead = false ∧ (∀ o, i ≠ .start o) ∧ ∃ e, e ≠ .none ∧ t = raise e s := by
  cases exec_cases ht with
  | raised _ hread hstart e he => exact ⟨hread, hstart, e, he, rfl⟩
  | held | read => exact absurd hterr hs
  | ignored hp => exact absurd hp hs
  | opened | blockFilled | finished => simp at hterr
  | firstNibble hp | byteAbsorbed hp => simp [hp] at hterr

/-- Only a host step outside BUSY enters ERROR. -/
theorem step_enters_error {s t : State} (ht : step s = .next t) (hs : s.phase ≠ .error) (hterr : t.phase = .error) :
    NoReset s ∧ ∃ i, nextCommand s = some i ∧ exec i (clockReset s) = .next t := by
  cases step_cases ht with
  | reset => simp at hterr
  | host hr _ i hc _ hexec => exact ⟨hr, i, hc, hexec⟩
  | idle => exact absurd hterr hs
  | poll _ hp => simp [hp] at hterr
  | engine _ hp =>
    obtain ⟨_, heq⟩ | ⟨_, _, heq⟩ | ⟨_, _, heq⟩ := engineStep_cases (clockReset s) <;> simp [heq, hp] at hterr

/-- Settles O23: a step into ERROR is a command's `raise`. -/
theorem raiseIsTheOnlyWayIntoError : Obligations.RaiseIsTheOnlyWayIntoError := by
  refine ⟨fun e s _ => raise_eq_raised e s, fun s t ht hs hterr => ?_⟩
  obtain ⟨_, i, _, hexec⟩ := step_enters_error ht hs hterr
  obtain ⟨_, _, e, he, rfl⟩ := exec_enters_error hexec hs hterr
  exact ⟨e, he, raise_eq_raised e _⟩

/-! ## The causes of an error -/

/-- Which command raises E from the state s (R210, R212). -/
def ErrorCause (i : Instr) (s : State) (e : Err) : Prop :=
  (∃ c, i = .char c ∧ s.phase = .absorb ∧ valid c = false ∧ e = .invalidCharacter) ∨
  (∃ o, i = .finish o ∧ s.phase = .absorb ∧ s.nibp = true ∧ e = .invalidLength) ∨
  ((∃ c, i = .char c) ∧ (s.phase = .idle ∨ s.phase = .done) ∧ e = .protocolError) ∨
  ((∃ o, i = .finish o) ∧ (s.phase = .idle ∨ s.phase = .done) ∧ e = .protocolError) ∨
  (i.isReserved = true ∧ (s.phase = .idle ∨ s.phase = .absorb ∨ s.phase = .done) ∧ e = .protocolError)

/-- Through the phase table, ERROR is entered by PROTOCOL_ERROR or by the command's own effect in ABSORB. -/
theorem byPhase_enters_error {f : State → State} {s : State} (hs : s.phase ≠ .error) (h : (byPhase f s).phase = .error) :
    ((s.phase = .idle ∨ s.phase = .done) ∧ (byPhase f s).err = .protocolError) ∨
    (s.phase = .absorb ∧ byPhase f s = f s) := by
  cases hp : s.phase with
  | idle => exact .inl ⟨.inl rfl, by rw [byPhase_idle f s hp, raise_err]⟩
  | absorb => exact .inr ⟨rfl, byPhase_absorb f s hp⟩
  | busy => exact absurd (byPhase_busy f s hp ▸ h) hs
  | done => exact .inl ⟨.inr rfl, by rw [byPhase_done f s hp, raise_err]⟩
  | error => exact absurd hp hs

theorem takeChar_enters_error {c : Byte} {s : State} (hp : s.phase = .absorb) (h : (takeChar c s).phase = .error) :
    valid c = false := by
  by_contra hv
  rw [Bool.not_eq_false] at hv
  cases hn : s.nibp with
  | false => simp [takeChar_first c s hv hn, hp] at h
  | true =>
    by_cases hf : s.fill = 135
    · simp [takeChar_full c s hv hn hf] at h
    · simp [takeChar_room c s hv hn hf, hp] at h

theorem finishInput_enters_error {s : State} (h : (finishInput s).phase = .error) : s.nibp = true := by
  by_contra hn
  rw [Bool.not_eq_true] at hn
  simp [finishInput_even s hn] at h

/-- Every error a command raises has its cause. -/
theorem exec_errorCause {i : Instr} {s t : State} (ht : exec i s = .next t) (hs : s.phase ≠ .error)
    (hterr : t.phase = .error) : ErrorCause i s t.err := by
  by_cases hres : i.isReserved = true
  · rw [exec_reserved i hres] at ht
    injection ht with ht
    subst ht
    obtain ⟨hidle | hdone, herr⟩ | ⟨habsorb, heq⟩ := byPhase_enters_error hs hterr
    · exact .inr (.inr (.inr (.inr ⟨hres, .inl hidle, herr⟩)))
    · exact .inr (.inr (.inr (.inr ⟨hres, .inr (.inr hdone), herr⟩)))
    · exact .inr (.inr (.inr (.inr ⟨hres, .inr (.inl habsorb), by rw [heq, raise_err]⟩)))
  · obtain ⟨hread, hstart, _⟩ := exec_enters_error ht hs hterr
    cases i with
    | start o => exact absurd rfl (hstart o)
    | readStatus | readOut => simp [Instr.isRead] at hread
    | char c =>
      rw [exec_char] at ht
      injection ht with ht
      subst ht
      obtain hprotocol | ⟨habsorb, heq⟩ := byPhase_enters_error hs hterr
      · exact .inr (.inr (.inl ⟨⟨c, rfl⟩, hprotocol⟩))
      · have hv : valid c = false := takeChar_enters_error habsorb (heq ▸ hterr)
        have herr : (byPhase (takeChar c) s).err = .invalidCharacter := by rw [heq, takeChar_invalid c s hv, raise_err]
        exact .inl ⟨c, rfl, habsorb, hv, herr⟩
    | finish o =>
      injection ht with ht
      subst ht
      obtain hprotocol | ⟨habsorb, heq⟩ := byPhase_enters_error hs hterr
      · exact .inr (.inr (.inr (.inl ⟨⟨o, rfl⟩, hprotocol⟩)))
      · have hn : s.nibp = true := finishInput_enters_error (heq ▸ hterr)
        have herr : (byPhase finishInput s).err = .invalidLength := by rw [heq, finishInput_odd s hn, raise_err]
        exact .inr (.inl ⟨o, rfl, habsorb, hn, herr⟩)
    | reserved00 | reserved06 | reserved08 | reserved10 | reserved20 | reserved40 | reserved80 => exact absurd rfl hres

/-- Settles O24: the step is a command's, and its error has its cause. -/
theorem eachErrorHasItsCause : Obligations.EachErrorHasItsCause := by
  intro s t ht hs hterr
  obtain ⟨hr, i, hc, hexec⟩ := step_enters_error ht hs hterr
  obtain ⟨w, hw, rfl⟩ := head_of_nextCommand hc
  exact ⟨hr, w, hw, exec_errorCause (s := clockReset s) hexec hs hterr⟩

/-! ## Out of ERROR -/

/-- Settles O25: of the results of a step, only START's and the reset's leave ERROR. -/
theorem firstErrorStaysUntilStartOrReset : Obligations.FirstErrorStaysUntilStartOrReset := by
  intro s t hp ht
  cases step_cases ht with
  | reset hr => exact .inr (.inr ⟨rfl, by simp [noReset_iff, hr]⟩)
  | idle => exact .inl ⟨hp, rfl⟩
  | poll _ hbusy => simp [hp] at hbusy
  | engine _ hbusy => simp [hp] at hbusy
  | host hr _ i hc _ hexec =>
    cases exec_cases hexec with
    | read | ignored => exact .inl ⟨hp, rfl⟩
    | opened _ o hi =>
      obtain ⟨w, hw, hdecode⟩ := head_of_nextCommand hc
      exact .inr (.inl ⟨openComputation_eq_answered _, hr, w, o, hw, hdecode.trans hi⟩)
    | held hbusy => simp [hp] at hbusy
    | raised hphase => simp [hp] at hphase
    | firstNibble habsorb | byteAbsorbed habsorb | blockFilled habsorb | finished habsorb => simp [hp] at habsorb

/-! ## Out of BUSY -/

/-- Settles O27: a poll keeps PHASE, and a round changes it only as the last. -/
theorem onlyTheLastRoundOrResetLeavesBusy : Obligations.OnlyTheLastRoundOrResetLeavesBusy := by
  intro s t hp hround ht hleft
  cases step_cases ht with
  | reset hr => exact .inl ⟨by simp [noReset_iff, hr], rfl⟩
  | host _ hnot | idle _ hnot => exact absurd hp hnot
  | poll => simp [hp] at hleft
  | engine =>
    refine .inr ?_
    obtain ⟨_, heq⟩ | ⟨hlast, hfinal, heq⟩ | ⟨hlast, hfinal, heq⟩ := engineStep_cases (clockReset s)
    · simp [heq, hp] at hleft
    · rw [clockReset_round] at hlast
      rw [clockReset_final] at hfinal
      exact ⟨by omega, by simp [heq, hfinal], by simp, by simp⟩
    · rw [clockReset_round] at hlast
      rw [clockReset_final] at hfinal
      exact ⟨by omega, by simp [heq, hfinal], by simp, by simp⟩

end Sys2Proof.Machine

/-! PROOFS. The serialized view of the lane array (20_memory.md section 2) and the five steps of a round at bit level
(41_permutation.md sections 1 and 2), from the lane laws of Laws/Lanes.lean. -/

namespace Sys2Proof.Machine

open Sys2Proof.Claims

/-! ## The serialized view -/

theorem getLsbD_byteMask (n : Nat) : (0xFF : Lane).getLsbD n = decide (n < 8) := by
  have hmask : (0xFF : Lane) = BitVec.ofNat 64 (2 ^ 8 - 1) := rfl
  rw [hmask, BitVec.getLsbD_ofNat, Nat.testBit_two_pow_sub_one]
  by_cases h : n < 8
  · simp [h, show n < 64 by omega]
  · simp [h]

/-- XORing a byte into a lane replaces the byte there by the XOR, seen bit by bit below, within and above it. -/
theorem xor_byte_eq_replace (v : Lane) (b : Byte) (j : Nat) :
    v ^^^ (b.setWidth 64 <<< (8 * j)) =
      (v &&& ~~~((0xFF : Lane) <<< (8 * j))) ||| ((v.extractLsb' (8 * j) 8 ^^^ b).setWidth 64 <<< (8 * j)) := by
  apply BitVec.eq_of_getLsbD_eq
  intro z hz
  simp only [BitVec.getLsbD_xor, BitVec.getLsbD_or, BitVec.getLsbD_and, BitVec.getLsbD_not, BitVec.getLsbD_shiftLeft,
    BitVec.getLsbD_setWidth, BitVec.getLsbD_extractLsb', getLsbD_byteMask]
  by_cases hbelow : z < 8 * j
  · simp [hbelow, hz]
  · have hpos : 8 * j + (z - 8 * j) = z := by omega
    by_cases hin : z - 8 * j < 8
    · simp [hbelow, hz, hin, hpos, show z - 8 * j < 64 by omega]
    · simp [hbelow, hz, hin, BitVec.getLsbD_of_ge b (z - 8 * j) (by omega)]

/-- XORing into S is a write of the XOR, at every position (log 6 past the 200th). -/
theorem xorS_eq_writeS (a : Lanes) (b : Byte) (i : Nat) : xorS a i b = writeS a i (sByte a i ^^^ b) := by
  rw [xorS, writeS, sByte, xor_byte_eq_replace]

/-- Settles O31: the positions of S are among those of `xorS_eq_writeS`. -/
theorem xorIntoSIsAWriteOfTheXor : Obligations.XorIntoSIsAWriteOfTheXor := fun a b i _ => xorS_eq_writeS a b i

/-- Settles O30: a write is the XOR with what changes, and XORs are read back by `sByte_xorS`. -/
theorem serializedByteReadsBackWhatWasWritten : Obligations.SerializedByteReadsBackWhatWasWritten := by
  intro a v i j hi hj
  have hwrite : writeS a i v = xorS a i (sByte a i ^^^ v) := by
    rw [xorS_eq_writeS, ← BitVec.xor_assoc, BitVec.xor_self, BitVec.zero_xor]
  rw [hwrite, sByte_xorS a _ hi hj]
  by_cases hij : i = j
  · subst hij
    rw [if_pos rfl, if_pos rfl, ← BitVec.xor_assoc, BitVec.xor_self, BitVec.zero_xor]
  · rw [if_neg hij, if_neg hij]

/-! ## The bytes that CHAR and FINISH change -/

/-- A completing CHAR leaves A with the byte XORed in at FILL, whether or not that fills the block. -/
theorem takeChar_completes_a {c : Byte} {s : State} (hv : valid c = true) (hn : s.nibp = true) :
    (takeChar c s).a = xorS s.a s.fill.toNat (pairNibbles s.hi (hexval c)) := by
  by_cases hf : s.fill = 135
  · rw [takeChar_full c s hv hn hf, respondStatus_a, startPermutation_a]
  · rw [takeChar_room c s hv hn hf, respondStatus_a]

/-- Settles O32: the one byte changed is the one at FILL. -/
theorem charChangesOnlyTheByteAtFill : Obligations.CharChangesOnlyTheByteAtFill := by
  intro c s hp hfill hv hn
  refine ⟨takeChar c s, by rw [exec_char, byPhase_absorb _ s hp], fun i hi => ?_⟩
  rw [takeChar_completes_a hv hn, sByte_xorS s.a _ (by omega) hi, pairNibbles_eq]
  exact if_congr eq_comm rfl rfl

theorem finishInput_even_a {s : State} (hn : s.nibp = false) :
    (finishInput s).a = xorS (xorS s.a s.fill.toNat 0x01) 135 0x80 := by
  rw [finishInput_even s hn, respondStatus_a, startPermutation_a]

/-- Settles O33: the bytes changed are those at FILL and 135, one byte where FILL = 135. -/
theorem finishChangesOnlyThePaddingBytes : Obligations.FinishChangesOnlyThePaddingBytes := by
  intro operand s hp hfill hn
  refine ⟨finishInput s, by rw [exec_finish, byPhase_absorb _ s hp], fun i hi => ?_⟩
  rw [finishInput_even_a hn, sByte_xorS _ _ (by omega) hi, sByte_xorS _ _ (by omega) hi]
  by_cases hlast : i = 135
  · subst hlast
    by_cases hf : s.fill.toNat = 135
    · rw [if_pos rfl, if_pos hf, if_pos rfl, if_pos hf, BitVec.xor_assoc]
      rfl
    · rw [if_pos rfl, if_neg hf, if_pos rfl, if_neg hf]
  · rw [if_neg (Ne.symm hlast), if_neg hlast]
    exact if_congr eq_comm rfl rfl

/-! ## Rotation -/

/-- Bit z goes up by n, through the left shift, or around by 64 - n, through the right shift (R120). -/
theorem getLsbD_rol64 (v : Lane) {n z : Nat} (hn : n < 64) (hz : z < 64) :
    (rol64 v n).getLsbD ((z + n) % 64) = v.getLsbD z := by
  by_cases h0 : n = 0
  · simp [rol64, h0, Nat.mod_eq_of_lt hz]
  · rw [rol64, if_neg h0, BitVec.getLsbD_or, BitVec.getLsbD_shiftLeft, BitVec.getLsbD_ushiftRight]
    by_cases hwrap : z + n < 64
    · have hover : 64 ≤ 64 - n + (z + n) := by omega
      rw [Nat.mod_eq_of_lt hwrap, BitVec.getLsbD_of_ge v _ hover]
      simp [hwrap]
    · have hmod : (z + n) % 64 = z + n - 64 := by omega
      have hlow : z + n - 64 < n := by omega
      have hback : 64 - n + (z + n - 64) = z := by omega
      simp [hmod, hlow, hback]

/-- Settles O34: the bit law of `rol64`. -/
theorem rotationMovesEachBit : Obligations.RotationMovesEachBit := fun v _ _ hn hz => getLsbD_rol64 v hn hz

/-- A rotation by one reads the bit below, bit 63 below bit 0. -/
theorem getLsbD_rol64_one (v : Lane) {z : Nat} (hz : z < 64) : (rol64 v 1).getLsbD z = v.getLsbD ((z + 63) % 64) := by
  have hbelow : ((z + 63) % 64 + 1) % 64 = z := by omega
  rw [← getLsbD_rol64 v (n := 1) (by omega) (by omega : (z + 63) % 64 < 64), hbelow]

/-! ## The steps of a round -/

/-- The column parity, bit by bit, as the sum over the column. -/
theorem getLsbD_columnParity (a : Lanes) (x z : Nat) :
    (columnParity a x).getLsbD z = (List.range 5).foldl (fun p y => p ^^ (lane a x y).getLsbD z) false := by
  simp [columnParity, List.range_succ]

/-- Settles O35: θ XORs in the parity of column x - 1, and that of column x + 1 rotated by one. -/
theorem thetaAddsTheTwoNeighbourColumns : Obligations.ThetaAddsTheTwoNeighbourColumns := by
  intro a x y z hx hy hz
  rw [theta, lane_mkLanes, Nat.mod_eq_of_lt hx, Nat.mod_eq_of_lt hy, thetaEffect, BitVec.getLsbD_xor, BitVec.getLsbD_xor,
    getLsbD_rol64_one _ hz, getLsbD_columnParity, getLsbD_columnParity, Bool.xor_assoc]
  simp only [lane_mod_left]

/-- Settles O36: π's source of the position (y, 2x + 3y) is (x, y), because y + 3(2x + 3y) = x mod 5. -/
theorem rhoThenPiMovesEachRotatedLane : Obligations.RhoThenPiMovesEachRotatedLane := by
  intro a x y hx hy
  have hsource : (y + 3 * ((2 * x + 3 * y) % 5)) % 5 = x := by omega
  rw [piStep, lane_mkLanes, Nat.mod_mod, Nat.mod_eq_of_lt hy, rhoStep, lane_mkLanes, hsource, Nat.mod_eq_of_lt hy]

theorem lane_chi (a : Lanes) {x y : Nat} (hx : x < 5) (hy : y < 5) :
    lane (chi a) x y = lane a x y ^^^ (~~~(lane a (x + 1) y) &&& lane a (x + 2) y) := by
  rw [chi, lane_mkLanes, Nat.mod_eq_of_lt hx, Nat.mod_eq_of_lt hy]

/-- ι changes lane (0, 0) alone (R127). -/
theorem lane_iota (a : Lanes) (ir : Nat) {x y : Nat} (hx : x < 5) (hy : y < 5) :
    lane (iota a ir) x y = lane a x y ^^^ if x = 0 ∧ y = 0 then rc ir else 0 := by
  rw [iota, lane_setLane, Nat.mod_eq_of_lt hx, Nat.mod_eq_of_lt hy, Nat.zero_mod]
  by_cases h0 : x = 0 ∧ y = 0
  · obtain ⟨rfl, rfl⟩ := h0
    rfl
  · rw [if_neg h0, if_neg (fun h => h0 ⟨h.1.symm, h.2.symm⟩)]
    exact BitVec.xor_zero.symm

/-- Settles O37: χ combines three lanes of a row, and ι adds the constant at the origin. -/
theorem chiAndIotaCombineOldLanes : Obligations.ChiAndIotaCombineOldLanes := by
  intro a ir x y z hx hy hz
  rw [lane_iota _ ir hx hy, lane_chi a hx hy, lane_mod_left, lane_mod_left]
  by_cases h0 : x = 0 ∧ y = 0
  · simp [h0, hz]
  · simp [h0, hz]

/-- Settles O38: both tables are evaluated against their recurrences. -/
theorem tablesMatchTheirGenerators : Obligations.TablesMatchTheirGenerators := by
  unfold Obligations.TablesMatchTheirGenerators
  refine ⟨?_, rfl, ?_, rfl⟩
  · decide
  · decide

end Sys2Proof.Machine

/-! PROOFS. The engine (44_commands.md section 4): one round a step, 24 rounds from the start of a permutation to its
end, under every schedule of host reads, from the engine laws of Laws/Commands.lean and the fairness of Laws/Run.lean. -/

namespace Sys2Proof.Machine

open Sys2Proof.Claims

/-! ## One round -/

theorem round_succ (s : State) : BitVec.ofNat 5 (s.round.toNat + 1) = s.round + 1 := by bv_omega

/-- Settles O39: the three cases of the engine step. -/
theorem engineStepRunsOneRound : Obligations.EngineStepRunsOneRound := by
  intro s _
  refine ⟨fun hround => ⟨Config.pollsBeforeRound s.draw, ?_⟩, fun hround hfinal => ?_, fun hround hfinal => ?_⟩
  · rw [engineStep_more s hround, round_succ, drawSlack]
  · rw [engineStep_last s (by omega) hfinal, hround]
  · rw [engineStep_final s (by omega) hfinal, hround, complete]

/-! ## The rounds of a permutation -/

theorem repeat_engineStep_succ (k : Nat) (s : State) :
    Nat.repeat engineStep (k + 1) s = engineStep (Nat.repeat engineStep k s) := rfl

/-- Before its last round the engine has run the rounds in order, with PHASE, FINAL and OUT as they were. -/
theorem repeat_engineStep_lt {s : State} (hp : s.phase = .busy) (hround : s.round = 0) (k : Nat) (hk : k < 24) :
    (Nat.repeat engineStep k s).phase = .busy ∧ (Nat.repeat engineStep k s).round = BitVec.ofNat 5 k ∧
    (Nat.repeat engineStep k s).final = s.final ∧ (Nat.repeat engineStep k s).out = s.out ∧
    (Nat.repeat engineStep k s).a = (List.range k).foldl roundStep s.a := by
  induction k with
  | zero => exact ⟨hp, hround, rfl, rfl, rfl⟩
  | succ k ih =>
    obtain ⟨hphase, hcount, hfinal, hout, ha⟩ := ih (by omega)
    rw [repeat_engineStep_succ]
    generalize Nat.repeat engineStep k s = u at hphase hcount hfinal hout ha
    have hk5 : u.round.toNat = k := by rw [hcount, BitVec.toNat_ofNat]; omega
    rw [engineStep_more u (by omega), ← round_succ, hk5]
    simp only [drawSlack_phase, drawSlack_round, drawSlack_final, drawSlack_out, drawSlack_a]
    exact ⟨hphase, trivial, hfinal, hout, by rw [ha, List.range_succ, List.foldl_append, List.foldl_cons, List.foldl_nil]⟩

/-- Settles O40: 23 steps count ROUND up to 23, and the 24th is the last round. -/
theorem twentyFourEngineStepsAreKeccakF : Obligations.TwentyFourEngineStepsAreKeccakF := by
  intro s hp hround
  obtain ⟨hphase, hcount, hfinal, hout, ha⟩ := repeat_engineStep_lt hp hround 23 (by decide)
  refine ⟨fun k hk => ?_, ?_⟩
  · obtain ⟨hphase, hcount, _⟩ := repeat_engineStep_lt hp hround k hk
    exact ⟨hphase, hcount⟩
  · rw [repeat_engineStep_succ 23 s]
    generalize Nat.repeat engineStep 23 s = u at hphase hcount hfinal hout ha
    have hlast : u.round.toNat = 23 := by rw [hcount]; rfl
    have hkeccak : roundStep u.a 23 = keccakF s.a := by
      rw [keccakF, Config.numRounds, List.range_succ, List.foldl_append, ← ha, List.foldl_cons, List.foldl_nil]
    rw [engineStep_a, hlast, hkeccak]
    cases hf : u.final with
    | false =>
      have hsf : s.final = false := hfinal ▸ hf
      rw [engineStep_last u (by omega) hf, hsf]
      exact ⟨rfl, rfl, hf, by simp, fun _ => ⟨rfl, hout⟩⟩
    | true =>
      have hsf : s.final = true := hfinal ▸ hf
      rw [engineStep_final u (by omega) hf, hsf, hlast, hkeccak]
      exact ⟨rfl, rfl, rfl, fun _ => ⟨rfl, rfl⟩, by simp⟩

/-! ## The end of a permutation -/

/-- The state with other contents of the environment's fields: the stream, the responses and the schedule (logs 1 to 3). -/
def withEnv (stream : List CommandWord) (resps : List Byte) (slack draw : Nat) (s : State) : State :=
  { s with stream := stream, resps := resps, slack := slack, draw := draw }

section

variable (ws ws' : List CommandWord) (rs rs' : List Byte) (slack slack' draw draw' : Nat) (s : State)

@[simp] theorem withEnv_a : (withEnv ws rs slack draw s).a = s.a := rfl
@[simp] theorem withEnv_fill : (withEnv ws rs slack draw s).fill = s.fill := rfl
@[simp] theorem withEnv_nibp : (withEnv ws rs slack draw s).nibp = s.nibp := rfl
@[simp] theorem withEnv_hi : (withEnv ws rs slack draw s).hi = s.hi := rfl
@[simp] theorem withEnv_round : (withEnv ws rs slack draw s).round = s.round := rfl
@[simp] theorem withEnv_final : (withEnv ws rs slack draw s).final = s.final := rfl
@[simp] theorem withEnv_phase : (withEnv ws rs slack draw s).phase = s.phase := rfl
@[simp] theorem withEnv_err : (withEnv ws rs slack draw s).err = s.err := rfl
@[simp] theorem withEnv_out : (withEnv ws rs slack draw s).out = s.out := rfl
@[simp] theorem withEnv_resetIn : (withEnv ws rs slack draw s).resetIn = s.resetIn := rfl
@[simp] theorem withEnv_stream : (withEnv ws rs slack draw s).stream = ws := rfl
@[simp] theorem withEnv_resps : (withEnv ws rs slack draw s).resps = rs := rfl
@[simp] theorem withEnv_slack : (withEnv ws rs slack draw s).slack = slack := rfl
@[simp] theorem withEnv_draw : (withEnv ws rs slack draw s).draw = draw := rfl

/-- Only the last contents stand. -/
theorem withEnv_withEnv :
    withEnv ws rs slack draw (withEnv ws' rs' slack' draw' s) = withEnv ws rs slack draw s := rfl

end

/-- The state after the rounds still to run, whatever the schedule was: ABSORB, or DONE with the digest (R190, R191). -/
def permuted (s : State) : State :=
  let s' := { s with a := (List.range' s.round.toNat (24 - s.round.toNat)).foldl roundStep s.a, round := 0 }
  if s.final then complete s' else { s' with phase := .absorb }

theorem permuted_of_final {s : State} (h : s.final = true) :
    permuted s = complete { s with
      a := (List.range' s.round.toNat (24 - s.round.toNat)).foldl roundStep s.a, round := 0 } := if_pos h

theorem permuted_of_not_final {s : State} (h : s.final = false) :
    permuted s = { s with
      a := (List.range' s.round.toNat (24 - s.round.toNat)).foldl roundStep s.a, round := 0, phase := .absorb } :=
  if_neg (by simp [h])

@[simp] theorem permuted_a (s : State) :
    (permuted s).a = (List.range' s.round.toNat (24 - s.round.toNat)).foldl roundStep s.a := by
  cases h : s.final
  · rw [permuted_of_not_final h]
  · rw [permuted_of_final h, complete_a]

@[simp] theorem permuted_phase (s : State) : (permuted s).phase = if s.final then .done else .absorb := by
  cases h : s.final
  · rw [permuted_of_not_final h]; rfl
  · rw [permuted_of_final h]; rfl

@[simp] theorem permuted_stream (s : State) : (permuted s).stream = s.stream := by
  cases h : s.final
  · rw [permuted_of_not_final h]
  · rw [permuted_of_final h, complete_stream]

@[simp] theorem permuted_resps (s : State) : (permuted s).resps = s.resps := by
  cases h : s.final
  · rw [permuted_of_not_final h]
  · rw [permuted_of_final h, complete_resps]

@[simp] theorem permuted_resetIn (s : State) : (permuted s).resetIn = s.resetIn := by
  cases h : s.final
  · rw [permuted_of_not_final h]
  · rw [permuted_of_final h, complete_resetIn]

@[simp] theorem permuted_draw (s : State) : (permuted s).draw = s.draw := by
  cases h : s.final
  · rw [permuted_of_not_final h]
  · rw [permuted_of_final h, complete_draw]

@[simp] theorem permuted_fill (s : State) : (permuted s).fill = s.fill := by
  cases h : s.final
  · rw [permuted_of_not_final h]
  · rw [permuted_of_final h, complete_fill]

@[simp] theorem permuted_nibp (s : State) : (permuted s).nibp = s.nibp := by
  cases h : s.final
  · rw [permuted_of_not_final h]
  · rw [permuted_of_final h, complete_nibp]

@[simp] theorem permuted_err (s : State) : (permuted s).err = s.err := by
  cases h : s.final
  · rw [permuted_of_not_final h]
  · rw [permuted_of_final h, complete_err]

theorem permuted_out_of_final {s : State} (h : s.final = true) :
    (permuted s).out = encodeDigest (squeeze (permuted s).a) := by
  rw [permuted_of_final h, complete_out, complete_a]

theorem permuted_a_of_first_round {s : State} (h : s.round = 0) : (permuted s).a = keccakF s.a := by
  rw [permuted_a, h, keccakF, List.range_eq_range']
  rfl

/-- The last round is the end of the permutation. -/
theorem engineStep_eq_permuted {s : State} (h : s.round.toNat = 23) : engineStep s = permuted s := by
  have hrounds : (List.range' s.round.toNat (24 - s.round.toNat)).foldl roundStep s.a = roundStep s.a s.round.toNat := by
    rw [h]; rfl
  cases hf : s.final with
  | false => rw [engineStep_last s (by omega) hf, permuted_of_not_final hf, hrounds]
  | true => rw [engineStep_final s (by omega) hf, permuted_of_final hf, hrounds]

/-- A round before the last is one of those still to run. -/
theorem permuted_engineStep {s : State} (h : s.round.toNat < 23) (stream : List CommandWord) (resps : List Byte)
    (slack draw : Nat) :
    permuted (withEnv stream resps slack draw (engineStep s)) = permuted (withEnv stream resps slack draw s) := by
  have hnext : (s.round + 1).toNat = s.round.toNat + 1 := by bv_omega
  have hrounds : 24 - s.round.toNat = (24 - (s.round.toNat + 1)) + 1 := by omega
  rw [engineStep_more s h, permuted, permuted]
  simp only [withEnv, drawSlack, hnext]
  rw [hrounds, List.range'_succ, List.foldl_cons]
  rfl

theorem engineStep_phase_of_lt {s : State} (h : s.round.toNat < 23) : (engineStep s).phase = s.phase := by
  rw [engineStep_more s h, drawSlack_phase]

theorem engineStep_draw_of_lt {s : State} (h : s.round.toNat < 23) : (engineStep s).draw = s.draw + 1 := by
  rw [engineStep_more s h, drawSlack_draw]

theorem engineStep_round_of_lt {s : State} (h : s.round.toNat < 23) :
    (engineStep s).round.toNat = s.round.toNat + 1 := by
  rw [engineStep_more s h, drawSlack_round]
  bv_omega

/-! ## BUSY under every schedule -/

/-- Fairness, in the words of `withEnv`. -/
theorem busy_reaches_engineStep {s : State} (hp : s.phase = .busy) (hreset : s.resetIn = []) :
    ∃ (k : Nat) (reads rest : List CommandWord) (rs : List Byte) (slack : Nat),
      s.stream = reads ++ rest ∧ (∀ w ∈ reads, (decode w).isRead = true) ∧ rs.length = reads.length ∧
      runSteps k s = .next (engineStep (withEnv rest (s.resps ++ rs) slack s.draw s)) :=
  engine_turn_comes s hp hreset

/-- From BUSY the permutation ends, by induction on the rounds still to run: before each round finitely many reads are taken
(R192), and each round but the last schedules the next. -/
theorem busy_reaches_permuted (n : Nat) (s : State) (hn : s.round.toNat + n = 23) (hp : s.phase = .busy)
    (hreset : s.resetIn = []) :
    ∃ (k : Nat) (reads rest : List CommandWord) (rs : List Byte) (slack : Nat),
      s.stream = reads ++ rest ∧ (∀ w ∈ reads, (decode w).isRead = true) ∧ rs.length = reads.length ∧
      runSteps k s = .next (permuted (withEnv rest (s.resps ++ rs) slack (s.draw + n) s)) := by
  induction n generalizing s with
  | zero =>
    obtain ⟨k, reads, rest, rs, slack, hstream, hreads, hlength, hrun⟩ := busy_reaches_engineStep hp hreset
    exact ⟨k, reads, rest, rs, slack, hstream, hreads, hlength, hrun.trans (congrArg _ (engineStep_eq_permuted hn))⟩
  | succ n ih =>
    obtain ⟨k, reads, rest, rs, slack, hstream, hreads, hlength, hrun⟩ := busy_reaches_engineStep hp hreset
    have hround : (withEnv rest (s.resps ++ rs) slack s.draw s).round.toNat < 23 := by rw [withEnv_round]; omega
    have hnext : (engineStep (withEnv rest (s.resps ++ rs) slack s.draw s)).round.toNat + n = 23 := by
      rw [engineStep_round_of_lt hround, withEnv_round]
      omega
    obtain ⟨k', reads', rest', rs', slack', hstream', hreads', hlength', hrun'⟩ := ih _ hnext
      ((engineStep_phase_of_lt hround).trans hp) ((engineStep_resetIn _).trans hreset)
    rw [permuted_engineStep hround, engineStep_resps, engineStep_draw_of_lt hround, withEnv_withEnv] at hrun'
    rw [engineStep_stream, withEnv_stream] at hstream'
    refine ⟨k + k', reads ++ reads', rest', rs ++ rs', slack', ?_, ?_, by simp [hlength, hlength'], ?_⟩
    · rw [hstream, hstream', List.append_assoc]
    · intro w hw
      exact (List.mem_append.mp hw).elim (hreads w) (hreads' w)
    · rw [runSteps_add k k' hrun, hrun', withEnv_resps, withEnv_draw, List.append_assoc, Nat.add_assoc, Nat.add_comm 1 n]

/-- Settles O41: the state after BUSY is `permuted`, whatever the reads taken and the schedule drawn. -/
theorem busyEndsUnderEverySchedule : Obligations.BusyEndsUnderEverySchedule := by
  intro s hp hround hreset
  obtain ⟨k, reads, rest, rs, slack, hstream, hreads, hlength, hrun⟩ :=
    busy_reaches_permuted (23 - s.round.toNat) s (by omega) hp hreset
  refine ⟨k, _, reads, hrun, permuted_phase _, permuted_a _, permuted_draw _, ?_, hreads, ?_⟩
  · rw [permuted_stream, withEnv_stream, hstream]
  · rw [permuted_resps, withEnv_resps, List.length_append, hlength]

/-! ## A held command -/

/-- A held command leaves the turn to the engine. -/
theorem step_held {s : State} {w : CommandWord} {rest : List CommandWord} (hheld : (decode w).isRead = false)
    (hp : s.phase = .busy) (hreset : s.resetIn = []) (hstream : s.stream = w :: rest) :
    step s = .next (engineStep s) := by
  have hturn : ∀ i, nextCommand s = some i → i.isRead = true → s.slack = 0 := by
    intro i hi hread
    rw [nextCommand_of_head (by rw [hstream, List.head?_cons])] at hi
    injection hi with hi
    rw [← hi, hheld] at hread
    cases hread
  rw [step_engine (by simp [resetAsserted, hreset]) hp hturn, clockReset_of_nil s hreset]

/-- Behind a held command the engine has every step, by induction on the rounds still to run. -/
theorem held_reaches_permuted {w : CommandWord} {rest : List CommandWord} (hheld : (decode w).isRead = false) (n : Nat)
    (s : State) (hn : s.round.toNat + n = 23) (hp : s.phase = .busy) (hreset : s.resetIn = [])
    (hstream : s.stream = w :: rest) :
    ∃ slack, runSteps (n + 1) s = .next (permuted (withEnv s.stream s.resps slack (s.draw + n) s)) := by
  induction n generalizing s with
  | zero =>
    refine ⟨s.slack, ?_⟩
    rw [runSteps_succ 0 (step_held hheld hp hreset hstream), runSteps_zero, engineStep_eq_permuted hn]
    rfl
  | succ n ih =>
    have hround : s.round.toNat < 23 := by omega
    have hnext : (engineStep s).round.toNat + n = 23 := by
      rw [engineStep_round_of_lt hround]
      omega
    obtain ⟨slack, hrun⟩ := ih (engineStep s) hnext ((engineStep_phase_of_lt hround).trans hp)
      ((engineStep_resetIn s).trans hreset) ((engineStep_stream s).trans hstream)
    refine ⟨slack, ?_⟩
    rw [runSteps_succ _ (step_held hheld hp hreset hstream), hrun, permuted_engineStep hround,
      engineStep_stream, engineStep_resps, engineStep_draw_of_lt hround, Nat.add_assoc, Nat.add_comm 1 n]

theorem permuted_phase_ne_busy (s : State) : (permuted s).phase ≠ .busy := by
  rw [permuted_phase]
  split <;> decide

/-- Settles O42: the held command waits at the head of the stream, and is run in the phase that follows. -/
theorem heldCommandIsAcceptedAfterTheRounds : Obligations.HeldCommandIsAcceptedAfterTheRounds := by
  intro s w rest hp hround hreset hstream hheld
  obtain ⟨slack, hrun⟩ := held_reaches_permuted hheld (23 - s.round.toNat) s (by omega) hp hreset hstream
  have hsteps : 23 - s.round.toNat + 1 = 24 - s.round.toNat := by omega
  rw [hsteps] at hrun
  refine ⟨_, hrun, permuted_phase_ne_busy _, by simp [hstream], by simp, ?_⟩
  exact step_eq_exec (permuted_phase_ne_busy _) (by simp [hreset]) (by simp [hstream]; rfl)

end Sys2Proof.Machine

/-! PROOFS. The whole block (44_commands.md section 5, 30_encoding.md section 4): runs of commands that only respond, and
the sequence START, characters, FINISH with reads anywhere, up to its end in DONE or in ERROR. -/

namespace Sys2Proof.Machine

open Sys2Proof.Claims

/-! ## Commands that only respond -/

/-- The command changes no register in this phase: a read, or any command but START in ERROR (R185, R186, R189). -/
def OnlyResponds (i : Instr) (p : Phase) : Prop := i.isRead = true ∨ (p = .error ∧ ∀ o, i ≠ .start o)

/-- The response of a command that only responds. -/
def response (i : Instr) (s : State) : Byte :=
  match i with
  | .readOut n => outChar n.toNat s
  | _ => s.status

/-- Outside the reads, ERROR's row of the phase table is the response. -/
theorem exec_onlyResponds {i : Instr} {s : State} (h : OnlyResponds i s.phase) :
    exec i s = .next (respond (response i s) s) := by
  cases i with
  | readStatus | readOut => rfl
  | start o =>
    obtain hread | ⟨_, hstart⟩ := h
    · cases hread
    · exact absurd rfl (hstart o)
  | char | finish | reserved00 | reserved06 | reserved08 | reserved10 | reserved20 | reserved40 | reserved80 =>
    obtain hread | ⟨herror, _⟩ := h
    · cases hread
    · exact congrArg _ (byPhase_error _ s herror)

/-- A run of such commands takes them one a step and returns their responses in order. -/
theorem run_onlyResponds (ws rest : List CommandWord) (s : State) (hp : s.phase ≠ .busy) (hreset : s.resetIn = [])
    (hstream : s.stream = ws ++ rest) (h : ∀ w ∈ ws, OnlyResponds (decode w) s.phase) :
    runSteps ws.length s =
      .next (withEnv rest (s.resps ++ ws.map fun w => response (decode w) s) s.slack s.draw s) := by
  induction ws generalizing s with
  | nil =>
    rw [List.nil_append] at hstream
    rw [List.map_nil, List.append_nil, ← hstream]
    rfl
  | cons w ws ih =>
    have hstep : step s = .next (respond (response (decode w) s) s) := by
      rw [step_eq_exec hp hreset hstream, exec_onlyResponds (h w List.mem_cons_self)]
    have hrest := ih (respond (response (decode w) s) s) hp hreset (by rw [respond_stream, hstream]; rfl)
      fun x hx => h x (List.mem_cons_of_mem w hx)
    rw [List.length_cons, runSteps_succ _ hstep, hrest, respond_resps, List.append_assoc]
    rfl

/-! ## READ_DIGEST -/

theorem response_readOut {s : State} (hp : s.phase = .done) {i : Nat} (hi : i < 64) :
    response (.readOut (BitVec.ofNat 8 i)) s = s.out[i] := by
  have hindex : (BitVec.ofNat 8 i).toNat = i := by rw [BitVec.toNat_ofNat]; omega
  rw [response, hindex, outChar_of_lt hp hi]

/-- The responses to READ_DIGEST in DONE are the characters of OUT. -/
theorem readDigest_responses {s : State} (hp : s.phase = .done) :
    (readDigest.map fun w => response (decode w) s) = s.out.toList := by
  refine List.ext_getElem (by simp [readDigest]) fun i hi _ => ?_
  have hi64 : i < 64 := by simpa [readDigest] using hi
  simp only [readDigest, List.getElem_map, List.getElem_range, Vector.getElem_toList]
  rw [decode_encode rfl, response_readOut hp hi64]

/-- Settles O51: READ_DIGEST is a run of reads. -/
theorem readDigestReturnsTheOutput : Obligations.ReadDigestReturnsTheOutput := by
  intro s hp hreset hstream
  have hreads : ∀ w ∈ readDigest, OnlyResponds (decode w) s.phase := by
    intro w hw
    obtain ⟨i, _, rfl⟩ := List.mem_map.mp hw
    exact .inl (by rw [decode_encode rfl]; rfl)
  have hrun := run_onlyResponds readDigest [] s (by simp [hp]) hreset (by rw [hstream, List.append_nil]) hreads
  have hlength : readDigest.length = 64 := by simp [readDigest]
  rw [hlength, readDigest_responses hp] at hrun
  exact hrun

/-! ## The commands still to come, reads apart -/

/-- The commands of a stream that are no reads, in order. -/
def pending (ws : List CommandWord) : List Instr := (ws.map decode).filter fun i => !i.isRead

theorem pending_cons_read {w : CommandWord} (h : (decode w).isRead = true) (ws : List CommandWord) :
    pending (w :: ws) = pending ws := by
  simp [pending, h]

theorem pending_cons_command {w : CommandWord} (h : (decode w).isRead = false) (ws : List CommandWord) :
    pending (w :: ws) = decode w :: pending ws := by
  simp [pending, h]

theorem pending_reads_append {reads : List CommandWord} (h : ∀ w ∈ reads, (decode w).isRead = true)
    (ws : List CommandWord) : pending (reads ++ ws) = pending ws := by
  induction reads with
  | nil => rfl
  | cons w reads ih =>
    rw [List.cons_append, pending_cons_read (h w List.mem_cons_self), ih fun x hx => h x (List.mem_cons_of_mem w hx)]

/-- Before the first command that is no read there are only reads. -/
theorem eq_reads_append_of_pending {ws : List CommandWord} {i : Instr} {is : List Instr} (h : pending ws = i :: is) :
    ∃ (reads : List CommandWord) (w : CommandWord) (rest : List CommandWord), ws = reads ++ w :: rest ∧
      (∀ r ∈ reads, (decode r).isRead = true) ∧ decode w = i ∧ pending rest = is := by
  induction ws with
  | nil => cases h
  | cons w ws ih =>
    cases hread : (decode w).isRead with
    | true =>
      rw [pending_cons_read hread] at h
      obtain ⟨reads, w', rest, rfl, hreads, hw', hrest⟩ := ih h
      exact ⟨w :: reads, w', rest, rfl, List.forall_mem_cons.mpr ⟨hread, hreads⟩, hw', hrest⟩
    | false =>
      rw [pending_cons_command hread] at h
      injection h with hw hrest
      exact ⟨[], w, ws, rfl, by simp, hw, hrest⟩

/-- Every command of the stream is a read or still to come. -/
theorem mem_pending {w : CommandWord} {ws : List CommandWord} (hw : w ∈ ws) :
    (decode w).isRead = true ∨ decode w ∈ pending ws := by
  cases hread : (decode w).isRead with
  | true => exact .inl rfl
  | false => exact .inr (List.mem_filter.mpr ⟨List.mem_map_of_mem hw, by simp [hread]⟩)

/-- Outside BUSY the next command that is no read is taken after the reads before it. -/
theorem command_taken {s : State} {i : Instr} {is : List Instr} (hp : s.phase ≠ .busy) (hreset : s.resetIn = [])
    (hpending : pending s.stream = i :: is) :
    ∃ (k : Nat) (w : CommandWord) (rest : List CommandWord) (rs : List Byte), pending rest = is ∧
      ∀ t, exec i (withEnv (w :: rest) rs s.slack s.draw s) = .next t → runSteps k s = .next t := by
  obtain ⟨reads, w, rest, hstream, hreads, rfl, hrest⟩ := eq_reads_append_of_pending hpending
  have hrun := run_onlyResponds reads (w :: rest) s hp hreset hstream fun r hr => .inl (hreads r hr)
  refine ⟨reads.length + 1, w, rest, s.resps ++ reads.map fun r => response (decode r) s, hrest, fun t ht => ?_⟩
  have hstep := (step_eq_exec (s := withEnv (w :: rest) _ s.slack s.draw s) hp hreset rfl).trans ht
  exact (runSteps_add _ 1 hrun).trans (runSteps_succ 0 hstep)

/-- A stream of commands that only respond runs dry. -/
theorem drain {s : State} (hp : s.phase ≠ .busy) (hreset : s.resetIn = [])
    (h : ∀ i ∈ pending s.stream, OnlyResponds i s.phase) :
    ∃ (k : Nat) (rs : List Byte), runSteps k s = .next (withEnv [] rs s.slack s.draw s) := by
  refine ⟨s.stream.length, _, run_onlyResponds s.stream [] s hp hreset (List.append_nil _).symm fun w hw => ?_⟩
  exact (mem_pending hw).elim .inl (h _)

/-! ## The end in ERROR -/

/-- The block has stopped in ERROR with nothing left in its stream. -/
def FailedWith (e : Err) (u : State) : Prop := u.stream = [] ∧ u.phase = .error ∧ u.err = e ∧ u.out = zeroOut

/-- A command that raises ends the computation: without another START, the rest of the stream is ignored (R189). -/
theorem raise_ends {s : State} {i : Instr} {is : List Instr} {e : Err} (hp : s.phase ≠ .busy) (hreset : s.resetIn = [])
    (hpending : pending s.stream = i :: is) (hstart : ∀ j ∈ is, ∀ o, j ≠ .start o)
    (hraise : ∀ ws rs, exec i (withEnv ws rs s.slack s.draw s) = .next (raise e (withEnv ws rs s.slack s.draw s))) :
    ∃ k u, runSteps k s = .next u ∧ FailedWith e u := by
  obtain ⟨k, w, rest, rs, rfl, hrun⟩ := command_taken hp hreset hpending
  have hraised := hrun _ (hraise _ _)
  generalize hu : raise e (withEnv (w :: rest) rs s.slack s.draw s) = u at hraised
  have hstream : u.stream = rest := by rw [← hu]; rfl
  have hphase : u.phase = .error := by rw [← hu]; rfl
  have hnoreset : u.resetIn = [] := by rw [← hu]; exact hreset
  obtain ⟨k', rs', hdrain⟩ := drain (by simp [hphase]) hnoreset
    fun j hj => .inr ⟨hphase, hstart j (hstream ▸ hj)⟩
  refine ⟨k + k', _, (runSteps_add k k' hraised).trans hdrain, rfl, hphase, ?_, ?_⟩
  · rw [withEnv_err, ← hu, raise_err]
  · rw [withEnv_out, ← hu, raise_out]

/-! ## One byte of the message -/

/-- A computation is open, with or without a nibble pending. -/
structure Absorbing (nibp : Bool) (s : State) : Prop where
  phase_eq : s.phase = .absorb
  err_eq : s.err = .none
  reset_eq : s.resetIn = []
  nibp_eq : s.nibp = nibp
  fill_le : s.fill.toNat ≤ 135

theorem Absorbing.not_busy {nibp : Bool} {s : State} (h : Absorbing nibp s) : s.phase ≠ .busy := by simp [h.phase_eq]

theorem Absorbing.exec_char {nibp : Bool} {s : State} (h : Absorbing nibp s) (c : Byte) :
    exec (.char c) s = .next (takeChar c s) := by
  rw [Machine.exec_char, byPhase_absorb _ s h.phase_eq]

theorem Absorbing.exec_finish {nibp : Bool} {s : State} (h : Absorbing nibp s) (o : Byte) :
    exec (.finish o) s = .next (finishInput s) := by
  rw [Machine.exec_finish, byPhase_absorb _ s h.phase_eq]

theorem Absorbing.withEnv {nibp : Bool} {s : State} (h : Absorbing nibp s) (ws : List CommandWord) (rs : List Byte)
    (slack draw : Nat) : Absorbing nibp (withEnv ws rs slack draw s) := { h with }

/-- START opens a computation. -/
theorem absorbing_openComputation {s : State} (h : s.resetIn = []) : Absorbing false (openComputation s) :=
  ⟨rfl, rfl, h, rfl, by simp⟩

/-- The first character of a pair is held in HI (R183). -/
theorem first_char_taken {s : State} {c : Byte} {is : List Instr} (h : Absorbing false s) (hv : valid c = true)
    (hpending : pending s.stream = .char c :: is) :
    ∃ k u, runSteps k s = .next u ∧ Absorbing true u ∧ pending u.stream = is ∧ u.hi = hexval c ∧ u.a = s.a ∧
      u.fill = s.fill ∧ u.draw = s.draw := by
  obtain ⟨k, w, rest, rs, rfl, hrun⟩ := command_taken h.not_busy h.reset_eq hpending
  have hs' := h.withEnv (w :: rest) rs s.slack s.draw
  refine ⟨k, _, hrun _ ((hs'.exec_char c).trans (congrArg _ (takeChar_first c _ hv hs'.nibp_eq))), ?_, rfl, rfl, rfl, rfl,
    rfl⟩
  exact ⟨h.phase_eq, h.err_eq, h.reset_eq, rfl, h.fill_le⟩

/-- A permutation that a command starts ends, with the commands still to come as they were, in ABSORB with the state
permuted, or, where it is the final one, in DONE with its digest. -/
theorem startPermutation_ends {k : Nat} {s s' : State} {f : Bool}
    (hstart : runSteps k s = .next (respondStatus (startPermutation f s'))) (hreset : s'.resetIn = []) :
    ∃ k u, runSteps k s = .next u ∧ pending u.stream = pending s'.stream.tail ∧
      u.phase = (if f then .done else .absorb) ∧ u.a = keccakF s'.a ∧ u.fill = 0 ∧ u.nibp = s'.nibp ∧ u.err = s'.err ∧
      u.resetIn = [] ∧ u.draw = s'.draw + 24 ∧ (f = true → u.out = encodeDigest (squeeze (keccakF s'.a))) := by
  obtain ⟨k', reads, rest, rs, slack, hstream, hreads, _, hrun⟩ :=
    busy_reaches_permuted 23 (respondStatus (startPermutation f s')) rfl rfl hreset
  generalize hu : withEnv rest _ slack _ (respondStatus (startPermutation f s')) = b at hrun
  have hround : b.round = 0 := by rw [← hu]; rfl
  have hfinal : b.final = f := by rw [← hu]; rfl
  have ha : (permuted b).a = keccakF s'.a := by rw [permuted_a_of_first_round hround, ← hu]; rfl
  refine ⟨k + k', permuted b, (runSteps_add k k' hstart).trans hrun, ?_, ?_, ha, ?_, ?_, ?_, ?_, ?_, fun hf => ?_⟩
  · rw [permuted_stream, ← hu, withEnv_stream, ← pending_reads_append hreads, ← hstream]
    rfl
  · rw [permuted_phase, hfinal]
  · rw [permuted_fill, ← hu]
    rfl
  · rw [permuted_nibp, ← hu]
    rfl
  · rw [permuted_err, ← hu]
    rfl
  · rw [permuted_resetIn, ← hu]
    exact hreset
  · rw [permuted_draw, ← hu]
    rfl
  · rw [permuted_out_of_final (hfinal.trans hf), ha]

/-- The second character of a pair completes a byte, which is fed to the state; a full block is permuted (R183, R188). -/
theorem second_char_taken {s : State} {c : Byte} {is : List Instr} (h : Absorbing true s) (hv : valid c = true)
    (hpending : pending s.stream = .char c :: is) :
    ∃ k u, runSteps k s = .next u ∧ Absorbing false u ∧ pending u.stream = is ∧
      (u.a, u.fill.toNat) = feedByte (s.a, s.fill.toNat) (pairNibbles s.hi (hexval c)) ∧
      u.draw = s.draw + if s.fill.toNat = 135 then 24 else 0 := by
  obtain ⟨k, w, rest, rs, rfl, hrun⟩ := command_taken h.not_busy h.reset_eq hpending
  have hs' := h.withEnv (w :: rest) rs s.slack s.draw
  have htaken := hrun _ (hs'.exec_char c)
  by_cases hf : s.fill.toNat = 135
  · rw [takeChar_full c _ hv hs'.nibp_eq (fill_eq_135 hf)] at htaken
    simp only [withEnv_a, withEnv_fill, withEnv_hi, hf] at htaken
    obtain ⟨k', u, hrun', hstream, hphase, ha, hfill, hnibp, herr, hreset, hdraw, _⟩ :=
      startPermutation_ends htaken hs'.reset_eq
    refine ⟨k', u, hrun', ⟨hphase, herr.trans h.err_eq, hreset, hnibp, by simp [hfill]⟩, hstream, ?_, ?_⟩
    · rw [hf, feedByte_full, ha, hfill]
      rfl
    · rw [hdraw, if_pos hf]
      rfl
  · rw [takeChar_room c _ hv hs'.nibp_eq (fun hfull => hf (congrArg BitVec.toNat hfull))] at htaken
    have hle := h.fill_le
    have hfill : (s.fill + 1).toNat = s.fill.toNat + 1 := by bv_omega
    refine ⟨k, _, htaken, ⟨h.phase_eq, h.err_eq, h.reset_eq, rfl, ?_⟩, rfl, ?_, ?_⟩
    · show (s.fill + 1).toNat ≤ 135
      omega
    · rw [feedByte_room _ hf, ← hfill]
      rfl
    · rw [if_neg hf]
      rfl

/-! ## The end in DONE -/

/-- The incremental form's last step (42_sponge.md R158): the padding at the position reached, and one more permutation. -/
def padAndPermute (p : Lanes × Nat) : Lanes := keccakF (xorS (xorS p.1 p.2 0x01) 135 0x80)

/-- The block has stopped in DONE with nothing left in its stream and the digest of the state given. -/
def FinishedWith (a : Lanes) (u : State) : Prop :=
  u.stream = [] ∧ u.phase = .done ∧ u.err = .none ∧ u.out = encodeDigest (squeeze a)

/-- FINISH after whole bytes pads, permutes once more and formats the digest (R184, R191). -/
theorem finish_taken {s : State} {o : Byte} (h : Absorbing false s) (hpending : pending s.stream = [.finish o]) :
    ∃ k u, runSteps k s = .next u ∧ FinishedWith (padAndPermute (s.a, s.fill.toNat)) u ∧ u.draw = s.draw + 24 := by
  obtain ⟨k, w, rest, rs, hrest, hrun⟩ := command_taken h.not_busy h.reset_eq hpending
  have hs' := h.withEnv (w :: rest) rs s.slack s.draw
  have htaken := hrun _ (hs'.exec_finish o)
  rw [finishInput_even _ hs'.nibp_eq] at htaken
  simp only [withEnv_a, withEnv_fill] at htaken
  obtain ⟨k', u, hrun', hstream, hphase, _, _, _, herr, hreset, hdraw, hout⟩ := startPermutation_ends htaken hs'.reset_eq
  have hdry : pending u.stream = [] := hstream.trans hrest
  obtain ⟨k'', rs', hdrain⟩ := drain (by simp [hphase]) hreset (by simp [hdry])
  refine ⟨k' + k'', _, (runSteps_add k' k'' hrun').trans hdrain, ⟨rfl, hphase, herr.trans h.err_eq, ?_⟩, hdraw⟩
  rw [withEnv_out, hout rfl, padAndPermute]

/-! ## A whole text -/

/-- The error a text's failure leaves in ERR (60_exceptions.md R210). -/
def failure : HexError → Err
  | .invalidCharacter => .invalidCharacter
  | .invalidLength => .invalidLength

/-- How the block ends from s, by what the characters still to come decode to: ERROR, or DONE after the rounds counted. -/
def EndsAs (s u : State) : Except HexError (List Byte) → Prop
  | .error e => FailedWith (failure e) u
  | .ok m =>
    FinishedWith (padAndPermute (m.foldl feedByte (s.a, s.fill.toNat))) u ∧
      u.draw = s.draw + 24 * ((s.fill.toNat + m.length) / 136 + 1)

theorem hexDecode_pair {c0 c1 : Byte} (h0 : valid c0 = true) (h1 : valid c1 = true) (rest : List Byte) :
    hexDecode (c0 :: c1 :: rest) = (hexDecode rest).map (pair c0 c1 :: ·) := by
  have hparity : (c0 :: c1 :: rest).length % 2 = rest.length % 2 := by simp only [List.length_cons]; omega
  have hall : (c0 :: c1 :: rest).all valid = rest.all valid := by simp [h0, h1]
  rw [hexDecode, hexDecode, hall, hparity, pairs]
  split_ifs <;> rfl

/-- One byte fed before the rest of the message. -/
theorem endsAs_cons {s s' u : State} {b : Byte} {r : Except HexError (List Byte)}
    (hfeed : (s'.a, s'.fill.toNat) = feedByte (s.a, s.fill.toNat) b)
    (hdraw : s'.draw = s.draw + if s.fill.toNat = 135 then 24 else 0) (h : EndsAs s' u r) :
    EndsAs s u (r.map (b :: ·)) := by
  cases r with
  | error e => exact h
  | ok m =>
    obtain ⟨hfinished, hrounds⟩ := h
    refine ⟨by rw [List.foldl_cons, ← hfeed]; exact hfinished, ?_⟩
    rw [hrounds, hdraw, List.length_cons]
    by_cases hf : s.fill.toNat = 135
    · have hfill : s'.fill.toNat = 0 := by
        rw [hf, feedByte_full] at hfeed
        exact congrArg Prod.snd hfeed
      rw [if_pos hf, hf, hfill]
      omega
    · have hfill : s'.fill.toNat = s.fill.toNat + 1 := by
        rw [feedByte_room _ hf] at hfeed
        exact congrArg Prod.snd hfeed
      have hsum : s.fill.toNat + (m.length + 1) = s.fill.toNat + 1 + m.length := by omega
      rw [if_neg hf, hfill, hsum, Nat.add_zero]

/-- No START among the rest of a text and its FINISH. -/
theorem not_start_of_mem_rest {t : List Byte} {y : Byte} {j : Instr} (h : j ∈ t.map Instr.char ++ [.finish y]) (o : Byte) :
    j ≠ .start o := by
  rintro rfl
  simp at h

/-- An invalid character ends the computation (R183). -/
theorem invalid_char_ends {nibp : Bool} {s : State} {c : Byte} {t : List Byte} {y : Byte} (h : Absorbing nibp s)
    (hv : valid c = false) (hpending : pending s.stream = .char c :: (t.map Instr.char ++ [.finish y])) :
    ∃ k u, runSteps k s = .next u ∧ FailedWith .invalidCharacter u :=
  raise_ends h.not_busy h.reset_eq hpending (fun _ => not_start_of_mem_rest) fun ws rs =>
    ((h.withEnv ws rs _ _).exec_char c).trans (congrArg _ (takeChar_invalid c _ hv))

/-- FINISH with a nibble pending ends the computation (R184). -/
theorem odd_finish_ends {s : State} {y : Byte} (h : Absorbing true s) (hpending : pending s.stream = [.finish y]) :
    ∃ k u, runSteps k s = .next u ∧ FailedWith .invalidLength u :=
  raise_ends h.not_busy h.reset_eq hpending (by simp) fun ws rs =>
    ((h.withEnv ws rs _ _).exec_finish y).trans (congrArg _ (finishInput_odd _ h.nibp_eq))

/-- From an open computation with no nibble pending, a text and FINISH end as the text decodes, two characters at a time. -/
theorem text_ends (t : List Byte) (y : Byte) (s : State) (h : Absorbing false s)
    (hpending : pending s.stream = t.map Instr.char ++ [.finish y]) :
    ∃ k u, runSteps k s = .next u ∧ EndsAs s u (hexDecode t) := by
  induction t using pairs.induct generalizing s with
  | case1 c0 c1 rest ih =>
    cases h0 : valid c0 with
    | false =>
      rw [hexDecode_invalidCharacter ⟨c0, by simp, h0⟩]
      exact invalid_char_ends (t := c1 :: rest) h h0 hpending
    | true =>
      obtain ⟨k, u, hrun, hu, hpending', hhi, ha, hfill, hdraw⟩ := first_char_taken h h0 hpending
      cases h1 : valid c1 with
      | false =>
        obtain ⟨k', v, hrun', hv⟩ := invalid_char_ends hu h1 hpending'
        refine ⟨k + k', v, (runSteps_add k k' hrun).trans hrun', ?_⟩
        rw [hexDecode_invalidCharacter ⟨c1, by simp, h1⟩]
        exact hv
      | true =>
        obtain ⟨k', v, hrun', hv, hpending'', hfeed, hdraw'⟩ := second_char_taken hu h1 hpending'
        obtain ⟨k'', x, hrun'', hx⟩ := ih v hv hpending''
        refine ⟨k + k' + k'', x, (runSteps_add _ k'' ((runSteps_add k k' hrun).trans hrun')).trans hrun'', ?_⟩
        rw [hhi, ha, hfill] at hfeed
        rw [hdraw, hfill] at hdraw'
        rw [hexDecode_pair h0 h1]
        exact endsAs_cons hfeed hdraw' hx
  | case2 c =>
    cases hv : valid c with
    | false =>
      rw [hexDecode_invalidCharacter ⟨c, by simp, hv⟩]
      exact invalid_char_ends (t := []) h hv hpending
    | true =>
      obtain ⟨k, u, hrun, hu, hpending', _⟩ := first_char_taken h hv hpending
      obtain ⟨k', v, hrun', hfailed⟩ := odd_finish_ends hu hpending'
      refine ⟨k + k', v, (runSteps_add k k' hrun).trans hrun', ?_⟩
      rw [hexDecode_of_valid (by simpa using hv)]
      exact hfailed
  | case3 =>
    obtain ⟨k, u, hrun, hfinished, hdraw⟩ := finish_taken h hpending
    refine ⟨k, u, hrun, hfinished, ?_⟩
    have hone : (s.fill.toNat + 0) / 136 = 0 := by
      have := h.fill_le
      omega
    rw [hdraw, pairs, List.length_nil, hone]

/-! ## The wrapper contract -/

theorem length_of_hexDecode {t m : List Byte} (h : hexDecode t = .ok m) : m.length = t.length / 2 := by
  rw [hexDecode] at h
  split_ifs at h with hvalid hodd
  injection h with h
  rw [← h]
  exact (pairs_spec (t.length / 2) t (by omega)).1

/-- The digest of a message is formatted from the incremental form's state (42_sponge.md R158). -/
theorem hash_eq_squeeze (m : List Byte) : hash m = squeeze (padAndPermute (m.foldl feedByte (zeroLanes, 0))) := by
  rw [hash, padAndPermute, (incrementalFormEqualsHash m).2]

theorem keccak256_of_hexDecode_ok {t m : List Byte} (h : hexDecode t = .ok m) :
    keccak256 t = .ok (encodeDigest (hash m)) := by
  rw [keccak256, h]

theorem keccak256_of_hexDecode_error {t : List Byte} {e : HexError} (h : hexDecode t = .error e) :
    keccak256 t = .error e := by
  rw [keccak256, h]

theorem status_of_failedWith {e : Err} {u : State} (h : FailedWith e u) : u.status = errorResponse e := by
  obtain ⟨_, hphase, herr, _⟩ := h
  rw [status_eq, hphase, herr, statusByte_error]

theorem status_of_finishedWith {a : Lanes} {u : State} (h : FinishedWith a u) : u.status = 0x03 := by
  obtain ⟨_, hphase, herr, _⟩ := h
  rw [status_eq, hphase, herr, statusByte_done_none]

/-- Settles O52: START opens a computation at the zero state, from where the text and FINISH end as `text_ends` says. -/
theorem hashSequenceComputesKeccak256 : Obligations.HashSequenceComputesKeccak256 := by
  intro t s x y hp hreset hpending
  obtain ⟨k, w, rest, rs, hrest, hrun⟩ := command_taken hp hreset hpending
  have hstart := hrun _ ((exec_start x _).trans (congrArg _ (unlessBusy_of_not_busy _ _ hp)))
  obtain ⟨k', u, hrun', hends⟩ := text_ends t y (openComputation (withEnv (w :: rest) rs s.slack s.draw s))
    (absorbing_openComputation hreset) hrest
  refine ⟨k + k', u, (runSteps_add k k' hstart).trans hrun', ?_⟩
  cases hdecode : hexDecode t with
  | error e =>
    rw [hdecode] at hends
    have hstatus := status_of_failedWith hends
    obtain ⟨hstream, hphase, herr, hout⟩ := hends
    rw [keccak256_of_hexDecode_error hdecode]
    refine ⟨hstream, fun h hok => (by cases hok), fun he => ?_, fun he => ?_⟩
    · injection he with he
      subst he
      exact ⟨hphase, herr, hout, hstatus⟩
    · injection he with he
      subst he
      exact ⟨hphase, herr, hout, hstatus⟩
  | ok m =>
    rw [hdecode] at hends
    obtain ⟨hfinished, hdraw⟩ := hends
    have hstatus := status_of_finishedWith hfinished
    obtain ⟨hstream, hphase, herr, hout⟩ := hfinished
    have hfill : (openComputation (withEnv (w :: rest) rs s.slack s.draw s)).fill.toNat = 0 := rfl
    rw [openComputation_a, hfill, ← hash_eq_squeeze] at hout
    rw [hfill, openComputation_draw, withEnv_draw, length_of_hexDecode hdecode] at hdraw
    have hblocks : (0 + t.length / 2) / 136 = t.length / 272 := by omega
    rw [keccak256_of_hexDecode_ok hdecode]
    refine ⟨hstream, fun h hok => ?_, fun he => (by cases he), fun he => (by cases he)⟩
    injection hok with hok
    exact ⟨hphase, herr, hout.trans hok, hstatus, by rw [hdraw, hblocks]⟩

end Sys2Proof.Machine
